-- ==== Sys2Proof/Word.lean ====
section
/-!
DEFINITION. The two widths of the machine (00_scope.md R5, R8): 8-bit bytes (registers, timers, memory) and 16-bit
words (I, pc, return addresses, instruction words). All values are unsigned (R8).
-/

namespace Sys2Proof

/-- An 8-bit value: a general register, a timer, a byte of memory (00_scope.md R5). -/
abbrev Byte := BitVec 8

/-- A 16-bit value: I, pc, a return address, an instruction word (00_scope.md R5). -/
abbrev Word := BitVec 16

/-- The number of one of the 16 general registers V0..VF (10_state.md R21). -/
abbrev Reg := Fin 16

/-- VF, general register 15, the only flag (10_state.md R22). -/
abbrev Reg.VF : Reg := 15

end Sys2Proof
end

