-- ==== Sys2Proof/Config.lean ====
section
/-!
DEFINITION. What is fixed for the machine (00_scope.md R5) and the one free value of the spec, the random byte
(42_alu.md R174). The font, a parameter of the spec, is in Machine/Font.lean.
-/

namespace Sys2Proof

/-- MEM_SIZE: 4096 bytes, addresses 0x000..0xFFF (00_scope.md R5). -/
abbrev Config.memSize : Nat := 4096

/-- PROG_ORIGIN: where `load` puts byte 0 of an image, and where reset sets pc (00_scope.md R5). -/
abbrev Config.progOrigin : Nat := 0x200

/-- MAX_IMAGE: 4096 - 0x200 = 3584 bytes (00_scope.md R5). -/
abbrev Config.maxImage : Nat := 3584

/-- FB_W and FB_H: 64 columns, 32 rows (00_scope.md R5). -/
abbrev Config.fbWidth : Nat := 64

@[inherit_doc Config.fbWidth]
abbrev Config.fbHeight : Nat := 32

/-- The bytes `draw_byte()` supplies, one for each execution of CXNN in the order of the draws: a FREE VALUE, with no
body, so that nothing is known of it. "under no law relating it to any other draw or to the machine state"
(42_alu.md R174, 92_eei_decisions.md D15; log 2). -/
opaque Config.freeByte : Nat → Byte

end Sys2Proof
end

