-- ==== Sys2Proof/Syntax.lean ====
section
/-!
DEFINITION. The 34 instructions of the opcode map (30_encoding.md R95), one constructor for each row of
spec/opcode_table.json, in the table's order. Operand types carry the fields' ranges (R91, R93): a register number or a
row count is a `Fin 16`, an immediate a bit vector of its field's width; so every term is an instruction of the map.
-/

namespace Sys2Proof

/-- An instruction (30_encoding.md R95). The pattern of each row stands beside its constructor. -/
inductive Instr where
  | cls                                  -- 00E0
  | ret                                  -- 00EE
  | jp (nnn : BitVec 12)                 -- 1NNN
  | call (nnn : BitVec 12)               -- 2NNN
  | seImm (x : Reg) (nn : Byte)          -- 3XNN
  | sneImm (x : Reg) (nn : Byte)         -- 4XNN
  | seReg (x y : Reg)                    -- 5XY0
  | ldImm (x : Reg) (nn : Byte)          -- 6XNN
  | addImm (x : Reg) (nn : Byte)         -- 7XNN
  | ldReg (x y : Reg)                    -- 8XY0
  | orReg (x y : Reg)                    -- 8XY1
  | andReg (x y : Reg)                   -- 8XY2
  | xorReg (x y : Reg)                   -- 8XY3
  | addReg (x y : Reg)                   -- 8XY4
  | sub (x y : Reg)                      -- 8XY5
  | shr (x y : Reg)                      -- 8XY6; y is part of the word, not of the operation (R97)
  | subn (x y : Reg)                     -- 8XY7
  | shl (x y : Reg)                      -- 8XYE; y is part of the word, not of the operation (R97)
  | sneReg (x y : Reg)                   -- 9XY0
  | ldI (nnn : BitVec 12)                -- ANNN
  | jpV0 (nnn : BitVec 12)               -- BNNN
  | rnd (x : Reg) (nn : Byte)            -- CXNN
  | drw (x y : Reg) (n : Fin 16)         -- DXYN; n is the number of rows
  | skp (x : Reg)                        -- EX9E
  | sknp (x : Reg)                       -- EXA1
  | ldGetDT (x : Reg)                    -- FX07
  | ldK (x : Reg)                        -- FX0A
  | ldSetDT (x : Reg)                    -- FX15
  | ldSetST (x : Reg)                    -- FX18
  | addI (x : Reg)                       -- FX1E
  | ldF (x : Reg)                        -- FX29
  | ldB (x : Reg)                        -- FX33
  | ldStore (x : Reg)                    -- FX55
  | ldLoad (x : Reg)                     -- FX65
  deriving DecidableEq, Repr

/-- The row's key in spec/opcode_table.json (30_encoding.md R103). -/
def Instr.mnemonic : Instr → String
  | .cls => "CLS"
  | .ret => "RET"
  | .jp _ => "JP"
  | .call _ => "CALL"
  | .seImm _ _ => "SE.imm"
  | .sneImm _ _ => "SNE.imm"
  | .seReg _ _ => "SE.reg"
  | .ldImm _ _ => "LD.imm"
  | .addImm _ _ => "ADD.imm"
  | .ldReg _ _ => "LD.reg"
  | .orReg _ _ => "OR"
  | .andReg _ _ => "AND"
  | .xorReg _ _ => "XOR"
  | .addReg _ _ => "ADD.reg"
  | .sub _ _ => "SUB"
  | .shr _ _ => "SHR"
  | .subn _ _ => "SUBN"
  | .shl _ _ => "SHL"
  | .sneReg _ _ => "SNE.reg"
  | .ldI _ => "LD.I"
  | .jpV0 _ => "JP.V0"
  | .rnd _ _ => "RND"
  | .drw _ _ _ => "DRW"
  | .skp _ => "SKP"
  | .sknp _ => "SKNP"
  | .ldGetDT _ => "LD.getDT"
  | .ldK _ => "LD.K"
  | .ldSetDT _ => "LD.setDT"
  | .ldSetST _ => "LD.setST"
  | .addI _ => "ADD.I"
  | .ldF _ => "LD.F"
  | .ldB _ => "LD.B"
  | .ldStore _ => "LD.store"
  | .ldLoad _ => "LD.load"

end Sys2Proof
end

