-- ==== Sys2Proof/WellFormed.lean ====
section
/-!
DEFINITION. What a well-formed instruction WORD is. Every term of `Instr` is well formed (its operand types are the
fields' ranges, Syntax.lean); what can be ill formed is a 16-bit word. A word is well formed when it matches a row of the
opcode map, written here as the spec tabulates it (30_encoding.md R94, R95): one mask and one match a row. The decoder of
Decode.lean is written from the other description, the nibble procedure of R94 and R96..R100.
-/

namespace Sys2Proof

/-- A row of the opcode map (30_encoding.md R95): a word selects it when `word AND mask = value`. -/
structure OpcodeRow where
  mnemonic : String
  mask : Word
  value : Word
  deriving DecidableEq, Repr

/-- Rows 1 to 9 of 30_encoding.md R95. -/
def opcodeMapLow : List OpcodeRow :=
  [⟨"CLS", 0xFFFF#16, 0x00E0#16⟩,
   ⟨"RET", 0xFFFF#16, 0x00EE#16⟩,
   ⟨"JP", 0xF000#16, 0x1000#16⟩,
   ⟨"CALL", 0xF000#16, 0x2000#16⟩,
   ⟨"SE.imm", 0xF000#16, 0x3000#16⟩,
   ⟨"SNE.imm", 0xF000#16, 0x4000#16⟩,
   ⟨"SE.reg", 0xF00F#16, 0x5000#16⟩,
   ⟨"LD.imm", 0xF000#16, 0x6000#16⟩,
   ⟨"ADD.imm", 0xF000#16, 0x7000#16⟩]

/-- Rows 10 to 19 of 30_encoding.md R95: groups 8 and 9. -/
def opcodeMapMiddle : List OpcodeRow :=
  [⟨"LD.reg", 0xF00F#16, 0x8000#16⟩,
   ⟨"OR", 0xF00F#16, 0x8001#16⟩,
   ⟨"AND", 0xF00F#16, 0x8002#16⟩,
   ⟨"XOR", 0xF00F#16, 0x8003#16⟩,
   ⟨"ADD.reg", 0xF00F#16, 0x8004#16⟩,
   ⟨"SUB", 0xF00F#16, 0x8005#16⟩,
   ⟨"SHR", 0xF00F#16, 0x8006#16⟩,
   ⟨"SUBN", 0xF00F#16, 0x8007#16⟩,
   ⟨"SHL", 0xF00F#16, 0x800E#16⟩,
   ⟨"SNE.reg", 0xF00F#16, 0x9000#16⟩]

/-- Rows 20 to 34 of 30_encoding.md R95. -/
def opcodeMapHigh : List OpcodeRow :=
  [⟨"LD.I", 0xF000#16, 0xA000#16⟩,
   ⟨"JP.V0", 0xF000#16, 0xB000#16⟩,
   ⟨"RND", 0xF000#16, 0xC000#16⟩,
   ⟨"DRW", 0xF000#16, 0xD000#16⟩,
   ⟨"SKP", 0xF0FF#16, 0xE09E#16⟩,
   ⟨"SKNP", 0xF0FF#16, 0xE0A1#16⟩,
   ⟨"LD.getDT", 0xF0FF#16, 0xF007#16⟩,
   ⟨"LD.K", 0xF0FF#16, 0xF00A#16⟩,
   ⟨"LD.setDT", 0xF0FF#16, 0xF015#16⟩,
   ⟨"LD.setST", 0xF0FF#16, 0xF018#16⟩,
   ⟨"ADD.I", 0xF0FF#16, 0xF01E#16⟩,
   ⟨"LD.F", 0xF0FF#16, 0xF029#16⟩,
   ⟨"LD.B", 0xF0FF#16, 0xF033#16⟩,
   ⟨"LD.store", 0xF0FF#16, 0xF055#16⟩,
   ⟨"LD.load", 0xF0FF#16, 0xF065#16⟩]

/-- The opcode map, "complete table" (30_encoding.md R95). -/
def opcodeMap : List OpcodeRow := opcodeMapLow ++ opcodeMapMiddle ++ opcodeMapHigh

/-- "An instruction is selected exactly when (op AND mask) = match for its row" (30_encoding.md R94). -/
def OpcodeRow.selects (r : OpcodeRow) (op : Word) : Bool := op &&& r.mask == r.value

/-- A word is well formed when some row of the map selects it; every other word is an unknown opcode
(30_encoding.md R94, R101). -/
def wellFormedWord (op : Word) : Bool := opcodeMap.any (·.selects op)

end Sys2Proof
end

