-- ==== Sys2Proof/Decode.lean ====
section
/-!
DEFINITION. The decoder, total on every word and every byte string (30_encoding.md R94, R101, R124 of
40_step_cycle.md), and after it the encoder, both from the fields and formats of R91 and R92.
-/

namespace Sys2Proof

/-- G = op[15:12], "the high nibble" (30_encoding.md R91). -/
def fieldG (op : Word) : Nat := (op.extractLsb' 12 4).toNat

/-- X = op[11:8] (30_encoding.md R91). -/
def fieldX (op : Word) : Reg := ⟨(op.extractLsb' 8 4).toNat, (op.extractLsb' 8 4).isLt⟩

/-- Y = op[7:4] (30_encoding.md R91). -/
def fieldY (op : Word) : Reg := ⟨(op.extractLsb' 4 4).toNat, (op.extractLsb' 4 4).isLt⟩

/-- N = op[3:0] (30_encoding.md R91). -/
def fieldN (op : Word) : Fin 16 := ⟨(op.extractLsb' 0 4).toNat, (op.extractLsb' 0 4).isLt⟩

/-- NN = op[7:0] (30_encoding.md R91). -/
def fieldNN (op : Word) : Byte := op.extractLsb' 0 8

/-- NNN = op[11:0] (30_encoding.md R91). -/
def fieldNNN (op : Word) : BitVec 12 := op.extractLsb' 0 12

/-- Group 0: exactly two words (30_encoding.md R96). -/
def decodeGroup0 (op : Word) : Option Instr :=
  if op = 0x00E0#16 then some .cls else if op = 0x00EE#16 then some .ret else none

/-- Group 8: the low nibble selects (30_encoding.md R97). -/
def decodeGroup8 (x y : Reg) : Nat → Option Instr
  | 0x0 => some (.ldReg x y)
  | 0x1 => some (.orReg x y)
  | 0x2 => some (.andReg x y)
  | 0x3 => some (.xorReg x y)
  | 0x4 => some (.addReg x y)
  | 0x5 => some (.sub x y)
  | 0x6 => some (.shr x y)
  | 0x7 => some (.subn x y)
  | 0xE => some (.shl x y)
  | _ => none

/-- Group E: the low byte selects (30_encoding.md R99). -/
def decodeGroupE (x : Reg) : Nat → Option Instr
  | 0x9E => some (.skp x)
  | 0xA1 => some (.sknp x)
  | _ => none

/-- Group F: the low byte selects (30_encoding.md R100). -/
def decodeGroupF (x : Reg) : Nat → Option Instr
  | 0x07 => some (.ldGetDT x)
  | 0x0A => some (.ldK x)
  | 0x15 => some (.ldSetDT x)
  | 0x18 => some (.ldSetST x)
  | 0x1E => some (.addI x)
  | 0x29 => some (.ldF x)
  | 0x33 => some (.ldB x)
  | 0x55 => some (.ldStore x)
  | 0x65 => some (.ldLoad x)
  | _ => none

/-- The decoder (30_encoding.md R94): the high nibble, then for groups 0, 5, 8, 9, E and F the rest of the fixed bits.
`none` is `Unknown(op)` (R101). Groups 5 and 9 require their low nibble to be 0 (R98; the spec's decision D9; log 15). -/
def decodeWord (op : Word) : Option Instr :=
  match fieldG op with
  | 0x0 => decodeGroup0 op
  | 0x1 => some (.jp (fieldNNN op))
  | 0x2 => some (.call (fieldNNN op))
  | 0x3 => some (.seImm (fieldX op) (fieldNN op))
  | 0x4 => some (.sneImm (fieldX op) (fieldNN op))
  | 0x5 => if fieldN op = 0 then some (.seReg (fieldX op) (fieldY op)) else none
  | 0x6 => some (.ldImm (fieldX op) (fieldNN op))
  | 0x7 => some (.addImm (fieldX op) (fieldNN op))
  | 0x8 => decodeGroup8 (fieldX op) (fieldY op) (fieldN op).val
  | 0x9 => if fieldN op = 0 then some (.sneReg (fieldX op) (fieldY op)) else none
  | 0xA => some (.ldI (fieldNNN op))
  | 0xB => some (.jpV0 (fieldNNN op))
  | 0xC => some (.rnd (fieldX op) (fieldNN op))
  | 0xD => some (.drw (fieldX op) (fieldY op) (fieldN op))
  | 0xE => decodeGroupE (fieldX op) (fieldNN op).toNat
  | 0xF => decodeGroupF (fieldX op) (fieldNN op).toNat
  | _ => none

/-- `hi ## lo`: the byte at the lower address is bits 15:8 (20_memory.md R62). -/
def composeWord (hi lo : Byte) : Word := hi ++ lo

/-- What the decoder answers on a byte string: an instruction and the bytes after it, or a rejection by name. -/
inductive Decoded where
  /-- The first two bytes are the instruction. -/
  | instr (i : Instr) (rest : List Byte)
  /-- The first two bytes match no row of the opcode map: `Unknown(op)` (30_encoding.md R101). -/
  | unknownOpcode (op : Word) (rest : List Byte)
  /-- Fewer than two bytes: no instruction word (30_encoding.md R90). -/
  | truncated
  deriving DecidableEq, Repr

/-- The decoder on bytes: every instruction is the first two bytes, high byte first (30_encoding.md R90). -/
def decode : List Byte → Decoded
  | hi :: lo :: rest =>
    match decodeWord (composeWord hi lo) with
    | some i => .instr i rest
    | none => .unknownOpcode (composeWord hi lo) rest
  | _ => .truncated

/-- The bytes of a word as memory holds them, high byte first (20_memory.md R62). -/
def wordBytes (w : Word) : List Byte := [w.extractLsb' 8 8, w.extractLsb' 0 8]

/-- The decoder on a word numbered as spec/opcode_table.json numbers it: bit 0 is the least significant bit of the one
16-bit word, and the bits above `nbits` are 0. -/
def decodeTableWord (nbits w : Nat) : Option Instr :=
  match decode (wordBytes (BitVec.ofNat 16 (w % 2 ^ nbits))) with
  | .instr i _ => some i
  | .unknownOpcode _ _ => none
  | .truncated => none

/-- Four hexadecimal digits, most significant first (30_encoding.md R92). -/
def packDigits (g : BitVec 4) (x y n : Fin 16) : Word :=
  g ++ BitVec.ofFin (w := 4) x ++ BitVec.ofFin (w := 4) y ++ BitVec.ofFin (w := 4) n

/-- Formats REG_IMM and REG_FN: G, X and a low byte (30_encoding.md R92). -/
def packByte (g : BitVec 4) (x : Reg) (nn : Byte) : Word := g ++ BitVec.ofFin (w := 4) x ++ nn

/-- Format ADDR: G and NNN (30_encoding.md R92). -/
def packAddr (g : BitVec 4) (nnn : BitVec 12) : Word := g ++ nnn

/-- The encoder: the word of each instruction from its pattern (30_encoding.md R92, R95). -/
def encode : Instr → Word
  | .cls => 0x00E0#16
  | .ret => 0x00EE#16
  | .jp nnn => packAddr 0x1 nnn
  | .call nnn => packAddr 0x2 nnn
  | .seImm x nn => packByte 0x3 x nn
  | .sneImm x nn => packByte 0x4 x nn
  | .seReg x y => packDigits 0x5 x y 0x0
  | .ldImm x nn => packByte 0x6 x nn
  | .addImm x nn => packByte 0x7 x nn
  | .ldReg x y => packDigits 0x8 x y 0x0
  | .orReg x y => packDigits 0x8 x y 0x1
  | .andReg x y => packDigits 0x8 x y 0x2
  | .xorReg x y => packDigits 0x8 x y 0x3
  | .addReg x y => packDigits 0x8 x y 0x4
  | .sub x y => packDigits 0x8 x y 0x5
  | .shr x y => packDigits 0x8 x y 0x6
  | .subn x y => packDigits 0x8 x y 0x7
  | .shl x y => packDigits 0x8 x y 0xE
  | .sneReg x y => packDigits 0x9 x y 0x0
  | .ldI nnn => packAddr 0xA nnn
  | .jpV0 nnn => packAddr 0xB nnn
  | .rnd x nn => packByte 0xC x nn
  | .drw x y n => packDigits 0xD x y n
  | .skp x => packByte 0xE x 0x9E
  | .sknp x => packByte 0xE x 0xA1
  | .ldGetDT x => packByte 0xF x 0x07
  | .ldK x => packByte 0xF x 0x0A
  | .ldSetDT x => packByte 0xF x 0x15
  | .ldSetST x => packByte 0xF x 0x18
  | .addI x => packByte 0xF x 0x1E
  | .ldF x => packByte 0xF x 0x29
  | .ldB x => packByte 0xF x 0x33
  | .ldStore x => packByte 0xF x 0x55
  | .ldLoad x => packByte 0xF x 0x65

end Sys2Proof
end

