-- ==== Sys2Proof/Machine/State.lean ====
section
/-!
DEFINITION. The complete state of the block (10_state.md R20), the step errors (60_exceptions.md R250), and the state
after `reset()` (10_state.md R40). The last two fields, `draws` and `events`, are the model's own (log 2, log 3).
-/

namespace Sys2Proof.Machine

/-- The key-wait state machine (10_state.md R32): no privilege level (60_exceptions.md R258). -/
inductive Mode where
  | running
  | awaitingKey
  deriving DecidableEq, Repr

/-- An output event (00_scope.md R9 `emit`; 10_state.md R35). -/
inductive Event where
  /-- The sound timer went from 1 to 0 in a tick (60_exceptions.md R263). -/
  | toneStart
  /-- The diagnostic `UnknownOpcode(addr, op)` (40_step_cycle.md R126, 60_exceptions.md R252). -/
  | unknownOpcode (addr op : Word)
  deriving DecidableEq, Repr

/-- Memory: the (address, byte) cells that differ from the contents after reset, addresses strictly rising (log 5;
`Memory.wf` and the operations are in Machine/Ops.lean). -/
abbrev Memory := List Host.Cell

/-- The framebuffer: 32 rows of 64 one-bit pixels; the pixel of column x is bit x of its row (10_state.md R30; log 7). -/
abbrev Framebuffer := Vector (BitVec 64) 32

/-- The complete state of the block (10_state.md R20), then the model's own two fields. -/
structure State where
  /-- V0..VF (10_state.md R21). -/
  V : Vector Byte 16
  /-- The index register (10_state.md R24). -/
  I : Word
  /-- The program counter (10_state.md R25). -/
  pc : Word
  /-- The return addresses; entries below `sp` are live (10_state.md R27). -/
  stack : Vector Word 16
  /-- The stack depth, 0 (empty) to 16 (full) (10_state.md R27; log 6). -/
  sp : Fin 17
  /-- The delay timer (10_state.md R28). -/
  DT : Byte
  /-- The sound timer (10_state.md R28). -/
  ST : Byte
  /-- The keypad slots, true for pressed (10_state.md R29). -/
  key : Vector Bool 16
  /-- The framebuffer (10_state.md R30). -/
  fb : Framebuffer
  /-- The redraw flag (10_state.md R31). -/
  redraw : Bool
  /-- RUNNING or AWAITING_KEY (10_state.md R32). -/
  mode : Mode
  /-- The register the pending FX0A will write (10_state.md R32). -/
  waitReg : Reg
  /-- The 4096 bytes of memory (10_state.md R33). -/
  mem : Memory
  /-- The model's own: how many random bytes CXNN has drawn (log 2). -/
  draws : Nat
  /-- The model's own: the events emitted so far, newest first (10_state.md R35; log 3). -/
  events : List Event
  deriving DecidableEq, Repr

/-- The step errors (60_exceptions.md R250), with the payload R250 gives each: `addr` the fetch address, `op` the word.
A step error ends the step with `Error`; the model treats it as a fault, as 40_step_cycle.md R128 and
93_implementation_defined.md U3 say (log 1). All are SAFE: the model stops where a host may go on. -/
inductive Fault where
  /-- 2NNN with 16 return addresses held (41_flow.md R142). Safe. -/
  | stackOverflow (addr op : Word)
  /-- 00EE with an empty stack (41_flow.md R140). Safe. -/
  | stackUnderflow (addr op : Word)
  /-- The fetch with pc above 0xFFE (40_step_cycle.md R121). Safe. -/
  | fetchOutOfRange (pc : Word)
  /-- DXYN with N > 0, FX33, FX55, FX65 reaching above 0xFFF; `first` is the first address out of range
  (20_memory.md R66, 43_index_memory.md R196). Safe. -/
  | dataOutOfRange (first : Nat) (addr op : Word)
  /-- EX9E, EXA1 with the key operand above 15 (45_keypad_timer_instr.md R236). Safe. -/
  | keyOperandRange (operand : Byte) (addr op : Word)
  deriving DecidableEq, Repr

/-- Reasons for giving an instruction no meaning. No instruction of this model is refused. -/
inductive Refusal where
  /-- Raised by an arm of `exec` whose instruction has no meaning yet: none has. Safe. -/
  | notModelled (mnemonic : String)
  deriving DecidableEq, Repr

/-- What a step or an instruction answers. -/
abbrev Result := Host.Outcome State Fault Refusal

/-- The state after `reset()` (10_state.md R40): memory with nothing listed reads as the font and zeros (log 5); the
model's own `draws` and `events` start at 0 and empty (DESIGN CHOICE, log 2, log 3). -/
def State.reset : State where
  V := Vector.replicate 16 0
  I := 0
  pc := 0x200
  stack := Vector.replicate 16 0
  sp := 0
  DT := 0
  ST := 0
  key := Vector.replicate 16 false
  fb := Vector.replicate 32 0
  redraw := false
  mode := .running
  waitReg := 0
  mem := []
  draws := 0
  events := []

end Sys2Proof.Machine
end

