-- ==== Sys2Proof/Machine/Flags.lean ====
section
/-!
DEFINITION. The values written to VF, the only flag (10_state.md R22; 42_alu.md R167).
-/

namespace Sys2Proof.Machine

/-- A flag as VF holds it: the byte 1 or 0 (10_state.md R22). -/
def flagByte (b : Bool) : Byte := if b then 1 else 0

/-- 8XY4: 1 if the 9-bit sum exceeds 255 (42_alu.md R168). -/
def carryFlag (a b : Byte) : Byte := flagByte (a.toNat + b.toNat > 255)

/-- 8XY5, 8XY7: 1 if `a >= b`, no borrow in `a - b` (42_alu.md R167, R169, R171). -/
def noBorrowFlag (a b : Byte) : Byte := flagByte (b.toNat ≤ a.toNat)

/-- 8XY6: `a[0]`, the bit shifted out to the right (42_alu.md R170). -/
def shiftedOutRight (a : Byte) : Byte := flagByte (a.getLsbD 0)

/-- 8XYE: `a[7]`, the bit shifted out to the left (42_alu.md R172). -/
def shiftedOutLeft (a : Byte) : Byte := flagByte (a.getLsbD 7)

end Sys2Proof.Machine
end

