-- ==== Sys2Proof/Machine/Font.lean ====
section
/-!
DEFINITION. The font, a parameter of the spec (10_state.md R41, D21): 16 glyphs of 5 bytes at 0x000. The spec fixes its
size, place and order; the bytes are the spec's default table, from general knowledge (PRESUMED, log 4). No rule of the
instruction set depends on them, and a statement about a drawn picture names `fontByte`.
-/

namespace Sys2Proof.Machine

/-- Glyphs 0 to 7, five bytes each (10_state.md R41). PRESUMED, log 4. -/
def fontGlyphsLow : List Byte :=
  [0xF0, 0x90, 0x90, 0x90, 0xF0] ++
  [0x20, 0x60, 0x20, 0x20, 0x70] ++
  [0xF0, 0x10, 0xF0, 0x80, 0xF0] ++
  [0xF0, 0x10, 0xF0, 0x10, 0xF0] ++
  [0x90, 0x90, 0xF0, 0x10, 0x10] ++
  [0xF0, 0x80, 0xF0, 0x10, 0xF0] ++
  [0xF0, 0x80, 0xF0, 0x90, 0xF0] ++
  [0xF0, 0x10, 0x20, 0x40, 0x40]

/-- Glyphs 8 to F, five bytes each (10_state.md R41). PRESUMED, log 4. -/
def fontGlyphsHigh : List Byte :=
  [0xF0, 0x90, 0xF0, 0x90, 0xF0] ++
  [0xF0, 0x90, 0xF0, 0x10, 0xF0] ++
  [0xF0, 0x90, 0xF0, 0x90, 0x90] ++
  [0xE0, 0x90, 0xE0, 0x90, 0xE0] ++
  [0xF0, 0x80, 0x80, 0x80, 0xF0] ++
  [0xE0, 0x90, 0x90, 0x90, 0xE0] ++
  [0xF0, 0x80, 0xF0, 0x80, 0xF0] ++
  [0xF0, 0x80, 0xF0, 0x80, 0x80]

/-- FONT[j] for j below 80, and 0 above: what address j holds after `reset()` (10_state.md R40, R41). -/
def fontByte (j : Nat) : Byte := (fontGlyphsLow ++ fontGlyphsHigh).getD j 0

end Sys2Proof.Machine
end

