-- ==== Sys2Proof/Machine/Operands.lean ====
section
/-!
DEFINITION. Operand forms (43_index_memory.md R196 is the one data addressing mode), zero extension (30_encoding.md R93)
and the small computations on operands.
-/

namespace Sys2Proof.Machine

/-- The 16 register numbers in rising order. -/
def allRegs : List Reg := [0, 1, 2, 3, 4, 5, 6, 7, 8, 9, 10, 11, 12, 13, 14, 15]

/-- The registers V0..VX inclusive, `k = 0 .. X` (43_index_memory.md R194, R195; the spec's decision D6; log 12). -/
def regsThrough (x : Reg) : List Reg := allRegs.filter (· ≤ x)

/-- `zext_16` of an address immediate (30_encoding.md R93). -/
def zextAddr (nnn : BitVec 12) : Word := nnn.setWidth 16

/-- `zext_16` of a byte (30_encoding.md R93). -/
def zextByte (v : Byte) : Word := v.setWidth 16

/-- `ea(k) = I + k`, an unbounded natural number (43_index_memory.md R196). -/
def effectiveAddress (i : Word) (k : Nat) : Nat := i.toNat + k

/-- An access of `count` bytes from `ea(0)`: in range when its highest address `I + count - 1` is at most 0xFFF; an
access of no bytes has no range check (43_index_memory.md R196, 44_display.md R212). -/
def accessInRange (i : Word) (count : Nat) : Bool := count == 0 || i.toNat + count ≤ 0x1000

/-- `max(I, 0x1000)`, the first address of a failing access that is out of range (43_index_memory.md R196). -/
def firstOutOfRange (i : Word) : Nat := max i.toNat 0x1000

/-- `5 * vx[3:0]`, the address of a glyph (43_index_memory.md R192). -/
def glyphAddress (vx : Byte) : Word := 5 * (vx.extractLsb' 0 4).setWidth 16

/-- Hundreds, tens, units (43_index_memory.md R193). -/
def decimalDigits (vx : Byte) : List Byte :=
  [BitVec.ofNat 8 (vx.toNat / 100), BitVec.ofNat 8 (vx.toNat / 10 % 10), BitVec.ofNat 8 (vx.toNat % 10)]

end Sys2Proof.Machine
end

