-- ==== Sys2Proof/Machine/Ops.lean ====
section
/-!
DEFINITION. The named operations over memory, registers, stack, keypad, timers and framebuffer, and raising a step error
as one shared operation (`raise`, 40_step_cycle.md R128), with the state a failed step leaves (`afterError`). There is no
return from an error: nothing runs in response to one (60_exceptions.md R255).
-/

namespace Sys2Proof.Machine

/-! ### Memory -/

/-- What an address holds when no cell lists it: its contents after `reset()`, the font in 0x000..0x04F and 0 above
(20_memory.md R61, 10_state.md R40; log 5). -/
def unlistedByte (a : Nat) : Byte := fontByte a

/-- `MemRead(a, 1)` (00_scope.md R9): the byte a cell lists, else the reset contents. -/
def Memory.read : Memory → Nat → Byte
  | [], a => unlistedByte a
  | (b, v) :: m, a => if b = a then v else Memory.read m a

/-- List `v` at `a`, keeping the addresses strictly rising. -/
def Memory.put : Memory → Nat → Byte → Memory
  | [], a, v => [(a, v)]
  | (b, w) :: m, a, v =>
    if a < b then (a, v) :: (b, w) :: m
    else if a = b then (a, v) :: m
    else (b, w) :: Memory.put m a v

/-- List nothing at `a`. -/
def Memory.remove (m : Memory) (a : Nat) : Memory := m.filter (fun c => c.1 ≠ a)

/-- `MemWrite(a, 1, v)` (00_scope.md R9), in canonical form: writing the reset contents lists nothing. -/
def Memory.write (m : Memory) (a : Nat) (v : Byte) : Memory :=
  if v = unlistedByte a then m.remove a else m.put a v

/-- Consecutive `MemWrite`s from `a` upward (20_memory.md R65). -/
def Memory.writeBytes (m : Memory) (a : Nat) : List Byte → Memory
  | [] => m
  | v :: vs => (m.write a v).writeBytes (a + 1) vs

/-- The canonical form: addresses strictly rising, all below 0x1000, no cell equal to the reset contents (log 5). -/
def Memory.wf (m : Memory) : Bool :=
  decide (m.Pairwise (fun c d => c.1 < d.1)) &&
    m.all (fun c => decide (c.1 < Config.memSize) && decide (c.2 ≠ unlistedByte c.1))

/-! ### Registers, pc, stack, keypad, timers, events -/

/-- `V[x]` (00_scope.md R9). -/
def State.readV (s : State) (x : Reg) : Byte := s.V[x.val]

/-- `V[x] <- v` (00_scope.md R9): no register is hardwired (10_state.md R21). -/
def State.writeV (s : State) (x : Reg) (v : Byte) : State := { s with V := s.V.set x.val v }

/-- `I <- v`, all 16 bits (10_state.md R24). -/
def State.setI (s : State) (v : Word) : State := { s with I := v }

/-- `pc <- v`, all 16 bits (10_state.md R25). -/
def State.setPc (s : State) (v : Word) : State := { s with pc := v }

/-- `pc <- pc + 2` after the fetch (40_step_cycle.md R123). -/
def State.advance (s : State) : State := s.setPc (s.pc + 2)

/-- One more `pc <- pc + 2` when the condition holds (41_flow.md R143); the skipped word is not looked at. -/
def State.skipIf (s : State) (c : Bool) : State := if c then s.setPc (s.pc + 2) else s

/-- The fetch address of the instruction being executed: pc is already advanced (10_state.md R25). -/
def State.fetchAddress (s : State) : Word := s.pc - 2

/-- `stack[sp] <- v; sp <- sp + 1` on a stack that is not full (41_flow.md R142; the spec's decision D10; log 6). -/
def State.push (s : State) (v : Word) (h : s.sp.val < 16) : State :=
  { s with stack := s.stack.set s.sp.val v h, sp := ⟨s.sp.val + 1, Nat.succ_lt_succ h⟩ }

/-- `sp <- sp - 1; pc <- stack[sp]` for a stack that is not empty; the popped entry stays (41_flow.md R140). -/
def State.popPc (s : State) : State :=
  { s with pc := s.stack[s.sp.val - 1]'(by omega), sp := ⟨s.sp.val - 1, by omega⟩ }

/-- `DT <- v` (45_keypad_timer_instr.md R234). -/
def State.setDT (s : State) (v : Byte) : State := { s with DT := v }

/-- `ST <- v` (45_keypad_timer_instr.md R235). -/
def State.setST (s : State) (v : Byte) : State := { s with ST := v }

/-- `key[k] <- p`; no instruction does this (10_state.md R29). -/
def State.writeKey (s : State) (k : Fin 16) (p : Bool) : State := { s with key := s.key.set k.val p }

/-- `wait_reg <- x; mode <- AWAITING_KEY` (45_keypad_timer_instr.md R233). -/
def State.startWait (s : State) (x : Reg) : State := { s with waitReg := x, mode := .awaitingKey }

/-- `mode <- RUNNING` (60_exceptions.md R266). -/
def State.resume (s : State) : State := { s with mode := .running }

/-- `redraw <- b` (10_state.md R31). -/
def State.setRedraw (s : State) (b : Bool) : State := { s with redraw := b }

/-- Replace the framebuffer. -/
def State.setFb (s : State) (fb : Framebuffer) : State := { s with fb := fb }

/-- Replace memory. -/
def State.setMem (s : State) (m : Memory) : State := { s with mem := m }

/-- `emit ev` (00_scope.md R9): the event joins the model's history, newest first (log 3). -/
def State.emit (s : State) (e : Event) : State := { s with events := e :: s.events }

/-- The draw of this CXNN is used up: the next one is another free byte (42_alu.md R174; log 2). -/
def State.nextDraw (s : State) : State := { s with draws := s.draws + 1 }

/-! ### Transfers between memory and registers -/

/-- FX55's copy: `mem[I + k] <- V[k]` for `k = 0 .. X` (43_index_memory.md R194). -/
def State.storeRegs (s : State) (x : Reg) : State :=
  s.setMem (s.mem.writeBytes (effectiveAddress s.I 0) ((regsThrough x).map s.readV))

/-- `V[k] <- mem[I + k]` for each listed register (43_index_memory.md R195). -/
def State.loadEach (s : State) : List Reg → State
  | [] => s
  | k :: ks => (s.writeV k (s.mem.read (effectiveAddress s.I k.val))).loadEach ks

/-- FX65's copy: `V[k] <- mem[I + k]` for `k = 0 .. X` (43_index_memory.md R195). -/
def State.loadRegs (s : State) (x : Reg) : State := s.loadEach (regsThrough x)

/-! ### Framebuffer -/

/-- `fb[y][x]` (10_state.md R30). -/
def Framebuffer.pixel (fb : Framebuffer) (y : Fin 32) (x : Fin 64) : Bool := fb[y.val].getLsbD x.val

/-- The framebuffer with every pixel 0. -/
def Framebuffer.clear : Framebuffer := Vector.replicate 32 0

/-- What a draw changes pixel by pixel: the framebuffer and the collision so far (44_display.md R212). -/
structure Canvas where
  fb : Framebuffer
  collision : Bool
  deriving DecidableEq, Repr

/-- One set bit of a sprite at column `px`, row `py`: outside 64x32 nothing happens; inside, a set pixel is a collision
and the pixel is XORed with 1 (44_display.md R212). -/
def plot (c : Canvas) (px py : Nat) : Canvas :=
  if h : px ≤ 63 ∧ py ≤ 31 then
    { fb := c.fb.set py (c.fb[py] ^^^ (1#64 <<< px)) (by omega)
      collision := c.collision || c.fb[py].getLsbD px }
  else c

/-- The columns `c = 0..7` of one sprite byte, bit `7 - c` at column offset `c` (44_display.md R210, R212; the bit order
is general knowledge, PRESUMED, log 8). -/
def drawRow (b : Byte) (vx py : Nat) : List Nat → Canvas → Canvas
  | [], cv => cv
  | c :: cs, cv => drawRow b vx py cs (if b.getLsbD (7 - c) then plot cv (vx + c) py else cv)

/-- The rows `r` of a sprite, byte `r` from address `I + r`, on screen row `vy + r` (44_display.md R210, R212). -/
def drawRows (m : Memory) (i : Word) (vx vy : Nat) : List Nat → Canvas → Canvas
  | [], cv => cv
  | r :: rs, cv =>
    drawRows m i vx vy rs (drawRow (m.read (effectiveAddress i r)) vx (vy + r) (List.range 8) cv)

/-- A sprite of `n` rows at column `vx`, row `vy` (44_display.md R212): nothing is reduced modulo the screen size. -/
def drawSprite (m : Memory) (i : Word) (vx vy n : Nat) (fb : Framebuffer) : Canvas :=
  drawRows m i vx vy (List.range n) { fb := fb, collision := false }

/-! ### Step errors -/

/-- Raising a step error, the one operation for all of them: the step ends with `Error(kind, a, op)`, `a` the fetch
address and `op` the word of the instruction (40_step_cycle.md R128, 60_exceptions.md R250; log 1, log 27). -/
def raise (kind : Word → Word → Fault) (i : Instr) (s : State) : Result :=
  .fault (kind s.fetchAddress (encode i))

/-- The state a failed step leaves, as R128 and R254 define it, from the state before the step: pc advanced by 2, nothing
else; FetchOutOfRange leaves everything. `step` faults; only a host that continues sees this state (log 1). -/
def afterError (s : State) : Fault → State
  | .fetchOutOfRange _ => s
  | .stackOverflow _ _ => s.advance
  | .stackUnderflow _ _ => s.advance
  | .dataOutOfRange _ _ _ => s.advance
  | .keyOperandRange _ _ _ => s.advance

/-- The range check before an access of `count` bytes from I: `DataOutOfRange(max(I, 0x1000))` before anything is read or
written, else the state `done` (20_memory.md R66, 43_index_memory.md R196; the spec's decision D1; log 11). -/
def guardAccess (i : Instr) (count : Nat) (s done : State) : Result :=
  if accessInRange s.I count then .next done else raise (.dataOutOfRange (firstOutOfRange s.I)) i s

/-- The key operand of EX9E and EXA1: the full 8-bit value names a slot 0..15, else `KeyOperandRange`
(45_keypad_timer_instr.md R236; the spec's decision D5; log 10). `skipWhen` is the slot value that skips. -/
def keySkip (i : Instr) (vx : Byte) (skipWhen : Bool) (s : State) : Result :=
  if h : vx.toNat < 16 then .next (s.skipIf (s.key[vx.toNat] == skipWhen))
  else raise (.keyOperandRange vx) i s

/-- `op = mem[pc] ## mem[pc + 1]` (40_step_cycle.md R122). -/
def State.fetchWord (s : State) : Word := composeWord (s.mem.read s.pc.toNat) (s.mem.read (s.pc.toNat + 1))

/-- No fetch when pc is above 0xFFE (40_step_cycle.md R121). -/
def State.fetchInRange (s : State) : Bool := s.pc.toNat ≤ 0xFFE

/-- An unknown opcode: `UnknownOpcode(a, op)` is emitted and pc advances by 2 (40_step_cycle.md R126). -/
def unknownOpcodeStep (s : State) : State := s.advance.emit (.unknownOpcode s.pc s.fetchWord)

end Sys2Proof.Machine
end

