-- ==== Sys2Proof/Machine/Alu.lean ====
section
/-!
DEFINITION. Register load and ALU (42_alu.md R160..R174). Operands are read before any write (00_scope.md R10), and a flag
is the last write, so that VF holds the flag when X = 15 (42_alu.md R173; the spec's decision D4; log 9).
-/

namespace Sys2Proof.Machine

/-- The two writes of 8XY4, 8XY5, 8XY6, 8XY7 and 8XYE in their order: the result, then the flag (42_alu.md R173). -/
def writeResultThenFlag (x : Reg) (result flag : Byte) (s : State) : State :=
  (s.writeV x result).writeV Reg.VF flag

/-- 6XNN (42_alu.md R161). -/
def execLdImm (x : Reg) (nn : Byte) (s : State) : Result := .next (s.writeV x nn)

/-- 7XNN: wraps mod 256, no flag (42_alu.md R162). -/
def execAddImm (x : Reg) (nn : Byte) (s : State) : Result := .next (s.writeV x (s.readV x + nn))

/-- 8XY0 (42_alu.md R163). -/
def execLdReg (x y : Reg) (s : State) : Result := .next (s.writeV x (s.readV y))

/-- 8XY1: VF is not written (42_alu.md R164). -/
def execOrReg (x y : Reg) (s : State) : Result := .next (s.writeV x (s.readV x ||| s.readV y))

/-- 8XY2: VF is not written (42_alu.md R165). -/
def execAndReg (x y : Reg) (s : State) : Result := .next (s.writeV x (s.readV x &&& s.readV y))

/-- 8XY3: VF is not written (42_alu.md R166). -/
def execXorReg (x y : Reg) (s : State) : Result := .next (s.writeV x (s.readV x ^^^ s.readV y))

/-- 8XY4: the low 8 bits of the sum, VF the carry (42_alu.md R168). -/
def execAddReg (x y : Reg) (s : State) : Result :=
  .next (writeResultThenFlag x (s.readV x + s.readV y) (carryFlag (s.readV x) (s.readV y)) s)

/-- 8XY5: VX - VY, VF 1 for no borrow (42_alu.md R169). -/
def execSub (x y : Reg) (s : State) : Result :=
  .next (writeResultThenFlag x (s.readV x - s.readV y) (noBorrowFlag (s.readV x) (s.readV y)) s)

/-- 8XY6: VX >> 1, VF the bit shifted out; VY is not used (42_alu.md R170). -/
def execShr (x _y : Reg) (s : State) : Result :=
  .next (writeResultThenFlag x (s.readV x >>> 1) (shiftedOutRight (s.readV x)) s)

/-- 8XY7: VY - VX, VF 1 for no borrow (42_alu.md R171). -/
def execSubn (x y : Reg) (s : State) : Result :=
  .next (writeResultThenFlag x (s.readV y - s.readV x) (noBorrowFlag (s.readV y) (s.readV x)) s)

/-- 8XYE: VX << 1, VF the bit shifted out; VY is not used (42_alu.md R172). -/
def execShl (x _y : Reg) (s : State) : Result :=
  .next (writeResultThenFlag x (s.readV x <<< 1) (shiftedOutLeft (s.readV x)) s)

/-- CXNN with the draw `r` (42_alu.md R174). -/
def rndWith (r : Byte) (x : Reg) (nn : Byte) (s : State) : State := (s.writeV x (r &&& nn)).nextDraw

/-- CXNN: the draw is a free byte, a fresh one each time (42_alu.md R174; the spec's decision D15; log 2). -/
def execRnd (x : Reg) (nn : Byte) (s : State) : Result := .next (rndWith (Config.freeByte s.draws) x nn s)

end Sys2Proof.Machine
end

