-- ==== Sys2Proof/Machine/Display.lean ====
section
/-!
DEFINITION. The display engine's instructions (44_display.md R210..R214).
-/

namespace Sys2Proof.Machine

/-- 00E0: every pixel 0; the redraw flag stays (44_display.md R211; the spec's decision D7; log 13). -/
def execCls (s : State) : Result := .next (s.setFb Framebuffer.clear)

/-- What a DXYN that passes its range check does: the sprite, then VF the collision, then the redraw flag; the
coordinates were read first (44_display.md R212). -/
def drawEffect (x y : Reg) (n : Fin 16) (s : State) : State :=
  let cv := drawSprite s.mem s.I (s.readV x).toNat (s.readV y).toNat n.val s.fb
  ((s.setFb cv.fb).writeV Reg.VF (flagByte cv.collision)).setRedraw true

/-- DXYN: all N bytes belong to the range check, clipped or not; N = 0 reads nothing (44_display.md R212; the spec's
decision D23; log 23). -/
def execDrw (x y : Reg) (n : Fin 16) (s : State) : Result :=
  guardAccess (.drw x y n) n.val s (drawEffect x y n s)

end Sys2Proof.Machine
end

