-- ==== Sys2Proof/Machine/Flow.lean ====
section
/-!
DEFINITION. Control transfer (41_flow.md R140..R147). In every meaning pc already holds the fetch address plus 2
(40_step_cycle.md R123).
-/

namespace Sys2Proof.Machine

/-- 00EE (41_flow.md R140). -/
def execRet (s : State) : Result :=
  if s.sp.val = 0 then raise .stackUnderflow .ret s else .next s.popPc

/-- 1NNN (41_flow.md R141). -/
def execJp (nnn : BitVec 12) (s : State) : Result := .next (s.setPc (zextAddr nnn))

/-- 2NNN: pushes the advanced pc (41_flow.md R142). -/
def execCall (nnn : BitVec 12) (s : State) : Result :=
  if h : s.sp.val < 16 then .next ((s.push s.pc h).setPc (zextAddr nnn))
  else raise .stackOverflow (.call nnn) s

/-- 3XNN (41_flow.md R143). -/
def execSeImm (x : Reg) (nn : Byte) (s : State) : Result := .next (s.skipIf (s.readV x == nn))

/-- 4XNN (41_flow.md R144). -/
def execSneImm (x : Reg) (nn : Byte) (s : State) : Result := .next (s.skipIf (s.readV x != nn))

/-- 5XY0 (41_flow.md R145). -/
def execSeReg (x y : Reg) (s : State) : Result := .next (s.skipIf (s.readV x == s.readV y))

/-- 9XY0 (41_flow.md R146). -/
def execSneReg (x y : Reg) (s : State) : Result := .next (s.skipIf (s.readV x != s.readV y))

/-- BNNN: always register 0, no 12-bit mask (41_flow.md R147). -/
def execJpV0 (nnn : BitVec 12) (s : State) : Result :=
  .next (s.setPc (zextAddr nnn + zextByte (s.readV 0)))

end Sys2Proof.Machine
end

