-- ==== Sys2Proof/Machine/IndexMemory.lean ====
section
/-!
DEFINITION. Index register and memory transfer (43_index_memory.md R190..R196). No transfer changes I (R196; the spec's
decision D6; log 12).
-/

namespace Sys2Proof.Machine

/-- ANNN (43_index_memory.md R190). -/
def execLdI (nnn : BitVec 12) (s : State) : Result := .next (s.setI (zextAddr nnn))

/-- FX1E: a 16-bit addition, no flag (43_index_memory.md R191; the spec's decision D3; log 14). -/
def execAddI (x : Reg) (s : State) : Result := .next (s.setI (s.I + zextByte (s.readV x)))

/-- FX29: `5 * vx[3:0]`; reads no memory (43_index_memory.md R192). -/
def execLdF (x : Reg) (s : State) : Result := .next (s.setI (glyphAddress (s.readV x)))

/-- FX33: the three decimal digits of VX to `I, I + 1, I + 2` (43_index_memory.md R193). -/
def execLdB (x : Reg) (s : State) : Result :=
  guardAccess (.ldB x) 3 s
    (s.setMem (s.mem.writeBytes (effectiveAddress s.I 0) (decimalDigits (s.readV x))))

/-- FX55: V0..VX inclusive to `I .. I + X` (43_index_memory.md R194). -/
def execLdStore (x : Reg) (s : State) : Result := guardAccess (.ldStore x) (x.val + 1) s (s.storeRegs x)

/-- FX65: `I .. I + X` to V0..VX inclusive (43_index_memory.md R195). -/
def execLdLoad (x : Reg) (s : State) : Result := guardAccess (.ldLoad x) (x.val + 1) s (s.loadRegs x)

end Sys2Proof.Machine
end

