-- ==== Sys2Proof/Machine/KeypadTimer.lean ====
section
/-!
DEFINITION. Keypad and timer instructions (45_keypad_timer_instr.md R230..R236).
-/

namespace Sys2Proof.Machine

/-- EX9E: skip if the key is pressed (45_keypad_timer_instr.md R230). -/
def execSkp (x : Reg) (s : State) : Result := keySkip (.skp x) (s.readV x) true s

/-- EXA1: skip if the key is not pressed (45_keypad_timer_instr.md R231). -/
def execSknp (x : Reg) (s : State) : Result := keySkip (.sknp x) (s.readV x) false s

/-- FX07 (45_keypad_timer_instr.md R232). -/
def execLdGetDT (x : Reg) (s : State) : Result := .next (s.writeV x s.DT)

/-- FX0A: starts the wait; `V[x]` is written later, by `setKey` (45_keypad_timer_instr.md R233). -/
def execLdK (x : Reg) (s : State) : Result := .next (s.startWait x)

/-- FX15 (45_keypad_timer_instr.md R234). -/
def execLdSetDT (x : Reg) (s : State) : Result := .next (s.setDT (s.readV x))

/-- FX18: emits nothing, whatever it overwrites (45_keypad_timer_instr.md R235; the spec's decision D14; log 19). -/
def execLdSetST (x : Reg) (s : State) : Result := .next (s.setST (s.readV x))

end Sys2Proof.Machine
end

