-- ==== Sys2Proof/Machine/Step.lean ====
section
/-!
DEFINITION. One `step()` (40_step_cycle.md R120, R129): gate on the mode, range-check pc, fetch, advance, decode, execute.
-/

namespace Sys2Proof.Machine

/-- One step (40_step_cycle.md R129). While AWAITING_KEY nothing changes (R127, `Suspended`; log 26); pc above 0xFFE
is FetchOutOfRange (R121); a known word runs on the advanced pc (R122..R125); an unknown word is a no-op with a
diagnostic (R126). -/
def step (s : State) : Host.Outcome State Fault Refusal :=
  match s.mode with
  | .awaitingKey => .next s
  | .running =>
    if s.fetchInRange then
      match decodeWord s.fetchWord with
      | some i => exec i s.advance
      | none => .next (unknownOpcodeStep s)
    else .fault (.fetchOutOfRange s.pc)

/-- `s` with the instruction word `w` (numbered as the opcode table numbers it) stored at pc, high byte first, so that the
next step fetches it (20_memory.md R62). The machine is made to fetch: mode RUNNING, and pc at 0x200 if it was above
0xFFE. It stands for a `load` from outside (70_reset_and_hazards.md R304; log 24). -/
def State.withFetchWord (s : State) (nbits w : Nat) : State :=
  let a : Word := if s.fetchInRange then s.pc else 0x200
  { s with
    mode := .running
    pc := a
    mem := s.mem.writeBytes a.toNat (wordBytes (BitVec.ofNat 16 (w % 2 ^ nbits))) }

end Sys2Proof.Machine
end

