-- ==== Sys2Proof/Machine/HostOps.lean ====
section
/-!
DEFINITION. The operations through which everything outside reaches the block (00_scope.md R7), each one atomic transition
of the machine state (60_exceptions.md R271; log 21), and `transition`, which performs any of them.
-/

namespace Sys2Proof.Machine

/-- What `step()` returns (40_step_cycle.md R120). -/
inductive StepResult where
  /-- One instruction of the opcode map was fetched and executed. -/
  | executed
  /-- The word `op` at `addr` matched no instruction. -/
  | executedUnknown (addr op : Word)
  /-- AWAITING_KEY: nothing was fetched. -/
  | suspended
  /-- A step error. -/
  | error (f : Fault)
  /-- The model's own: an instruction without a meaning. No step returns it, since no arm of `exec` refuses. -/
  | unmodelled (r : Refusal)
  deriving DecidableEq, Repr

/-- Which of its non-error results a step from `s` returns (40_step_cycle.md R120, R126, R127). -/
def completionResult (s : State) : StepResult :=
  match s.mode with
  | .awaitingKey => .suspended
  | .running =>
    match decodeWord s.fetchWord with
    | some _ => .executed
    | none => .executedUnknown s.pc s.fetchWord

/-- `step()` as the host sees it: the state after it, also after a step error, and the result (40_step_cycle.md R120,
R128). A host that continues after an error goes on from this state (60_exceptions.md R254, R255; log 1). -/
def stepOperation (s : State) : State × StepResult :=
  match step s with
  | .next t => (t, completionResult s)
  | .fault f => (afterError s f, .error f)
  | .refused r => (s, .unmodelled r)

/-- `reset()` (70_reset_and_hazards.md R300): every piece of the spec's state to its value of 10_state.md R40. It emits
nothing; the model's own history of draws and events goes on (log 25). -/
def hostReset (s : State) : State := { State.reset with draws := s.draws, events := s.events }

/-- `load(image)` (70_reset_and_hazards.md R304): `none` is LoadError, with no state change. It writes memory only (R305;
the spec's decision D17; log 20). -/
def loadImage (image : List Byte) (s : State) : Option State :=
  if image.length ≤ Config.maxImage then some (s.setMem (s.mem.writeBytes Config.progOrigin image)) else none

/-- A counter one tick later: toward 0, never below (60_exceptions.md R262). -/
def decay (v : Byte) : Byte := if v = 0 then 0 else v - 1

/-- `tick_timers()` (60_exceptions.md R262): both timers decay; `tone_start` exactly when ST goes from 1 to 0. -/
def tickTimers (s : State) : State :=
  let t := (s.setDT (decay s.DT)).setST (decay s.ST)
  if s.ST = 1 then t.emit .toneStart else t

/-- `set_key` on a slot that exists (60_exceptions.md R266): the slot is updated, and a transition to pressed ends a key
wait, writing the key index into `V[wait_reg]` (the spec's decision D12; log 18). -/
def setSlot (k : Fin 16) (pressed : Bool) (s : State) : State :=
  let t := s.writeKey k pressed
  if s.mode = .awaitingKey ∧ pressed = true ∧ s.key[k.val] = false then
    (t.writeV s.waitReg (BitVec.ofNat 8 k.val)).resume
  else t

/-- `set_key(index, pressed)` for any integer index (60_exceptions.md R266): `none` is KeyIndexRange, with no state
change (R251). -/
def setKey (index : Int) (pressed : Bool) (s : State) : Option State :=
  if h : 0 ≤ index ∧ index ≤ 15 then some (setSlot ⟨index.toNat, by omega⟩ pressed s) else none

/-- `framebuffer_snapshot()` (60_exceptions.md R269): the value of every pixel; the state does not change. -/
def framebufferSnapshot (s : State) : Framebuffer := s.fb

/-- `take_redraw_flag()` (60_exceptions.md R270): the flag, and the state with it cleared. -/
def takeRedrawFlag (s : State) : Bool × State := (s.redraw, s.setRedraw false)

/-- The operations of the interface (00_scope.md R7). `on_tone_start` is the event `toneStart`. -/
inductive Op where
  | reset
  | load (image : List Byte)
  | step
  | tickTimers
  | setKey (index : Int) (pressed : Bool)
  | framebufferSnapshot
  | takeRedrawFlag
  deriving DecidableEq, Repr

/-- What an operation returns to the host (00_scope.md R7). -/
inductive OpResult where
  | none
  | ok
  | loadError
  | keyIndexRange
  | stepped (r : StepResult)
  | snapshot (fb : Framebuffer)
  | redraw (b : Bool)
  deriving DecidableEq, Repr

/-- One atomic transition (60_exceptions.md R271): the state after the operation and what it returns. -/
def transition (op : Op) (s : State) : State × OpResult :=
  match op with
  | .reset => (hostReset s, .none)
  | .load image =>
    match loadImage image s with
    | some t => (t, .ok)
    | none => (s, .loadError)
  | .step => ((stepOperation s).1, .stepped (stepOperation s).2)
  | .tickTimers => (tickTimers s, .none)
  | .setKey index pressed =>
    match setKey index pressed s with
    | some t => (t, .ok)
    | none => (s, .keyIndexRange)
  | .framebufferSnapshot => (s, .snapshot (framebufferSnapshot s))
  | .takeRedrawFlag => ((takeRedrawFlag s).2, .redraw (takeRedrawFlag s).1)

/-- The state after a finite interleaving of operations (60_exceptions.md R271: any interleaving is an execution). -/
def runOps : List Op → State → State
  | [], s => s
  | op :: ops, s => runOps ops (transition op s).1

/-- How a run goes on after an operation that gave `t` and returned this result: a step error ends it with that error, since
"any `Error` result marks the run as faulted for good" (93_implementation_defined.md U3); any other result goes on
(LoadError and KeyIndexRange are no step errors, 60_exceptions.md R251). -/
def OpResult.after (t : State) : OpResult → Result
  | .none => .next t
  | .ok => .next t
  | .loadError => .next t
  | .keyIndexRange => .next t
  | .stepped .executed => .next t
  | .stepped (.executedUnknown _ _) => .next t
  | .stepped .suspended => .next t
  | .stepped (.error f) => .fault f
  | .stepped (.unmodelled r) => .refused r
  | .snapshot _ => .next t
  | .redraw _ => .next t

/-- A finite interleaving of operations as a run for claims: the state after it, or the first step error in it
(40_step_cycle.md R128: an `Error` "is never a final state and is never cleared"). -/
def runUntilError : List Op → State → Result
  | [], s => .next s
  | op :: ops, s =>
    match (transition op s).2.after (transition op s).1 with
    | .next t => runUntilError ops t
    | .fault f => .fault f
    | .refused r => .refused r

end Sys2Proof.Machine
end

