-- ==== Sys2Proof/Safety.lean ====
section
/-!
DEFINITION. The terms claims are stated in: the invariant of the machine, what a safe run is, the end of a run
(70_reset_and_hazards.md R320), the launch state (R306) and the clipped sprite mask (44_display.md R213).
-/

namespace Sys2Proof.Machine

/-- What holds of every state a run from reset reaches: memory in canonical form; pc at most 0x10FE, "the largest value
any rule can produce" (10_state.md R26); every return address at most 0x1000 (41_flow.md R140). -/
structure State.Inv (s : State) : Prop where
  memWf : s.mem.wf = true
  pcBound : s.pc.toNat ≤ 0x10FE
  stackBound : ∀ k : Fin 16, s.stack[k.val].toNat ≤ 0x1000

/-- No `UnknownOpcode` diagnostic was reported so far: the premise 93_implementation_defined.md U2 advises. -/
def State.noDiagnostic (s : State) : Prop := ∀ e ∈ s.events, e = .toneStart

/-- A safe run of `k` steps: no step faults (U3) and no diagnostic is reported (U2). -/
def SafeRun (k : Nat) (s : State) : Prop :=
  ∃ t, Sys2Proof.core.run k s = .next t ∧ State.noDiagnostic t

/-- The state condition of "the run has ended" at the halt address `h`: RUNNING, pc = h, and the word at h is a jump to h
(70_reset_and_hazards.md R320; the spec's decision D16; log 28). The two bytes must exist (R121). A state does not show
how it was reached, so this is not yet the end of a run: `RunEnded` is. -/
def State.atSelfJump (s : State) (h : BitVec 12) : Prop :=
  s.mode = .running ∧ s.pc = zextAddr h ∧ s.fetchInRange = true ∧ s.fetchWord = packAddr 0x1 h

/-- "the run has ended" (70_reset_and_hazards.md R320, D16; log 28): the run of the operations `ops` from `s` is at the
self-jump at `h`, and no step of it ended in an error, since "A state reached through an `Error` result is never the end
of a run". `s` is the state the run starts from, a launch state. -/
def RunEnded (ops : List Op) (s : State) (h : BitVec 12) : Prop :=
  ∃ t, runUntilError ops s = .next t ∧ t.atSelfJump h

/-- The launch state of the boot sequence: `reset()`, then `load(image)` (70_reset_and_hazards.md R306). -/
def launchState (image : List Byte) : Option State := loadImage image State.reset

/-- The clipped sprite mask S (44_display.md R213): whether a sprite of `n` rows at column `vx`, row `vy`, its bytes from
address `i`, has a set bit on the visible pixel of row `py`, column `px`. Byte `r` is row `vy + r`; bit `7 - c` is
column `vx + c` (R210). -/
def spriteMask (m : Memory) (i : Word) (vx vy n : Nat) (py : Fin 32) (px : Fin 64) : Bool :=
  decide (vx ≤ px.val ∧ px.val < vx + 8 ∧ vy ≤ py.val ∧ py.val < vy + n) &&
    (m.read (i.toNat + (py.val - vy))).getLsbD (7 - (px.val - vx))

end Sys2Proof.Machine
end

