-- ==== Sys2Proof/Certificates/Slice0/Obligations.lean ====
section
/-!
DEFINITION. The statements for the provers. In every statement about `exec` the state has pc already advanced, as the step
gives it to an instruction (40_step_cycle.md R123). A statement that rests on a decision of 92_eei_decisions.md says so and
names the log entry; `{ s with … }` on the right is the whole frame: every field not named is unchanged.
-/

open Sys2Proof Sys2Proof.Machine

namespace Sys2Proof.Claims

/-- A word from four hexadecimal digits, most significant first (30_encoding.md R92). -/
def digits (g : BitVec 4) (x y n : Fin 16) : Word :=
  g ++ BitVec.ofFin (w := 4) x ++ BitVec.ofFin (w := 4) y ++ BitVec.ofFin (w := 4) n

/-- A word from G, X and a low byte (30_encoding.md R92). -/
def digitsByte (g : BitVec 4) (x : Fin 16) (nn : Byte) : Word := g ++ BitVec.ofFin (w := 4) x ++ nn

/-- A word from G and NNN (30_encoding.md R92). -/
def digitsAddr (g : BitVec 4) (nnn : BitVec 12) : Word := g ++ nnn

/-- `t` is `s` but for the general registers. -/
def onlyRegisters (s t : State) : Prop := t = { s with V := t.V }

/-- `t` is `s` but for the bytes of memory. -/
def onlyMemory (s t : State) : Prop := t = { s with mem := t.mem }

/-- The registers of `t` are those of `s` but for `x` and VF. -/
def registersKeptBut (x : Reg) (s t : State) : Prop := ∀ k : Reg, k ≠ x → k ≠ Reg.VF → t.V[k] = s.V[k]

/-- The five instructions that write a result to VX and a flag to VF (42_alu.md R173), with their X. -/
def flagAlu : Instr → Option Reg
  | .addReg x _ => some x
  | .sub x _ => some x
  | .shr x _ => some x
  | .subn x _ => some x
  | .shl x _ => some x
  | _ => none

/-- The instructions of 42_alu.md with their X and Y; an instruction without a Y stands with X twice. -/
def aluOperands : Instr → Option (Reg × Reg)
  | .ldImm x _ => some (x, x)
  | .addImm x _ => some (x, x)
  | .ldReg x y => some (x, y)
  | .orReg x y => some (x, y)
  | .andReg x y => some (x, y)
  | .xorReg x y => some (x, y)
  | .addReg x y => some (x, y)
  | .sub x y => some (x, y)
  | .shr x _ => some (x, x)
  | .subn x y => some (x, y)
  | .shl x _ => some (x, x)
  | .rnd x _ => some (x, x)
  | _ => none

/-- The registers an instruction may write while it executes (10_state.md R23). -/
def mayWriteRegister : Instr → Reg → Prop
  | .ldImm x _, k => k = x
  | .addImm x _, k => k = x
  | .ldReg x _, k => k = x
  | .orReg x _, k => k = x
  | .andReg x _, k => k = x
  | .xorReg x _, k => k = x
  | .rnd x _, k => k = x
  | .ldGetDT x, k => k = x
  | .addReg x _, k => k = x ∨ k = Reg.VF
  | .sub x _, k => k = x ∨ k = Reg.VF
  | .shr x _, k => k = x ∨ k = Reg.VF
  | .subn x _, k => k = x ∨ k = Reg.VF
  | .shl x _, k => k = x ∨ k = Reg.VF
  | .drw _ _ _, k => k = Reg.VF
  | .ldLoad x, k => k ≤ x
  | _, _ => False

/-- Calls one after the other, each instruction fetched before it runs (41_flow.md R142). -/
def callAll : List (BitVec 12) → State → Result
  | [], s => .next s
  | a :: as, s =>
    match exec (.call a) s.advance with
    | .next t => callAll as t
    | .fault f => .fault f
    | .refused r => .refused r

/-- `k` ticks (60_exceptions.md R262). -/
def ticks : Nat → State → State
  | 0, s => s
  | k + 1, s => ticks k (tickTimers s)

/-- The payload every error but FetchOutOfRange carries: the fetch address and the word (60_exceptions.md R250). -/
def carries (f : Fault) (addr op : Word) : Prop :=
  f = .stackOverflow addr op ∨ f = .stackUnderflow addr op ∨ (∃ first, f = .dataOutOfRange first addr op) ∨
    ∃ operand, f = .keyOperandRange operand addr op

end Sys2Proof.Claims

open Sys2Proof.Claims

/-! ### Encoding -/

/-- One word of each family, written out bit by bit from its pattern (30_encoding.md R91, R95), decodes to the instruction
it stands for. -/
def Obligations.WordsWrittenFromPatternsDecode : Prop :=
  decodeWord 0b0000000011100000#16 = some .cls ∧
  decodeWord 0b0010111111101101#16 = some (.call 0xFED) ∧
  decodeWord 0b0011110001000010#16 = some (.seImm 12 0x42) ∧
  decodeWord 0b1000101010110110#16 = some (.shr 10 11) ∧
  decodeWord 0b1011001000110100#16 = some (.jpV0 0x234) ∧
  decodeWord 0b1101011110100101#16 = some (.drw 7 10 5) ∧
  decodeWord 0b1110000110100001#16 = some (.sknp 1) ∧
  decodeWord 0b1111001100001010#16 = some (.ldK 3) ∧
  decodeWord 0b1111001001010101#16 = some (.ldStore 2) ∧
  decodeWord 0b0000000000000000#16 = none

/-- Decoding the encoding of any instruction gives it back, with every operand at every value (30_encoding.md R91..R95).
Groups 5 and 9 and their low nibble: the spec's decision D9 (log 15). -/
def Obligations.DecodeOfEncodeIsTheInstruction : Prop :=
  ∀ i : Instr, decodeWord (encode i) = some i

/-- The other direction: a word that decodes is the encoding of what it decodes to, so no two words of the map mean the
same term and no bit of a word is dropped (30_encoding.md R91, R95). -/
def Obligations.EncodeOfDecodeIsTheWord : Prop :=
  ∀ (w : Word) (i : Instr), decodeWord w = some i → encode i = w

/-- Groups 0, 8, E and F, word by word (30_encoding.md R96, R97, R99, R100): which words are instructions, which
instruction each is, and which are unknown; the Y field of 8XY6 and 8XYE changes nothing. -/
def Obligations.GroupsWithSecondaryOpcodeDecode : Prop :=
  (∀ nnn : BitVec 12, decodeWord (digitsAddr 0x0 nnn) =
    if nnn = 0x0E0 then some .cls else if nnn = 0x0EE then some .ret else none) ∧
  (∀ x y n : Fin 16, decodeWord (digits 0x8 x y n) =
    if n = 0 then some (.ldReg x y) else if n = 1 then some (.orReg x y) else if n = 2 then some (.andReg x y)
    else if n = 3 then some (.xorReg x y) else if n = 4 then some (.addReg x y) else if n = 5 then some (.sub x y)
    else if n = 6 then some (.shr x y) else if n = 7 then some (.subn x y) else if n = 14 then some (.shl x y)
    else none) ∧
  (∀ (x y y' : Fin 16) (s : State), exec (.shr x y) s = exec (.shr x y') s ∧ exec (.shl x y) s = exec (.shl x y') s) ∧
  (∀ (x : Fin 16) (nn : Byte), decodeWord (digitsByte 0xE x nn) =
    if nn = 0x9E then some (.skp x) else if nn = 0xA1 then some (.sknp x) else none) ∧
  (∀ (x : Fin 16) (nn : Byte), decodeWord (digitsByte 0xF x nn) =
    if nn = 0x07 then some (.ldGetDT x) else if nn = 0x0A then some (.ldK x) else if nn = 0x15 then some (.ldSetDT x)
    else if nn = 0x18 then some (.ldSetST x) else if nn = 0x1E then some (.addI x) else if nn = 0x29 then some (.ldF x)
    else if nn = 0x33 then some (.ldB x) else if nn = 0x55 then some (.ldStore x)
    else if nn = 0x65 then some (.ldLoad x) else none)

/-- Groups 5 and 9: low nibble 0 is the instruction, 1..F is unknown. The spec's own decision D9 (90_conflicts.md C1;
log 15): "the pattern wins". -/
def Obligations.GroupsFiveAndNineRequireLowNibbleZero : Prop :=
  ∀ x y n : Fin 16,
    decodeWord (digits 0x5 x y n) = (if n = 0 then some (.seReg x y) else none) ∧
    decodeWord (digits 0x9 x y n) = (if n = 0 then some (.sneReg x y) else none)

/-- The groups selected by the high nibble alone have no unknown word, and their fields are read at the bits of
30_encoding.md R91 (R93, R94, R95). -/
def Obligations.GroupsOnHighNibbleAloneDecode : Prop :=
  (∀ nnn : BitVec 12,
    decodeWord (digitsAddr 0x1 nnn) = some (.jp nnn) ∧ decodeWord (digitsAddr 0x2 nnn) = some (.call nnn) ∧
    decodeWord (digitsAddr 0xA nnn) = some (.ldI nnn) ∧ decodeWord (digitsAddr 0xB nnn) = some (.jpV0 nnn)) ∧
  (∀ (x : Fin 16) (nn : Byte),
    decodeWord (digitsByte 0x3 x nn) = some (.seImm x nn) ∧ decodeWord (digitsByte 0x4 x nn) = some (.sneImm x nn) ∧
    decodeWord (digitsByte 0x6 x nn) = some (.ldImm x nn) ∧ decodeWord (digitsByte 0x7 x nn) = some (.addImm x nn) ∧
    decodeWord (digitsByte 0xC x nn) = some (.rnd x nn)) ∧
  (∀ x y n : Fin 16, decodeWord (digits 0xD x y n) = some (.drw x y n))

/-- The decoder, written from the nibble procedure, and the opcode map, written as masks and matches, agree on every word,
and no word selects two rows (30_encoding.md R94, R95; rows 7 and 19 by the decision D9, log 15). -/
def Obligations.DecoderSelectsTheOpcodeMapRow : Prop :=
  ∀ w : Word,
    (decodeWord w).map Instr.mnemonic = (opcodeMap.find? (·.selects w)).map OpcodeRow.mnemonic ∧
    (∀ r ∈ opcodeMap, ∀ q ∈ opcodeMap, r.selects w = true → q.selects w = true → r = q)

/-! ### The step cycle -/

/-- When RUNNING and the two bytes at pc and pc + 1, composed big-endian, are the word of an instruction, the step is that
instruction on the state with pc advanced by 2 (40_step_cycle.md R122, R123). -/
def Obligations.StepRunsTheDecodedInstruction : Prop :=
  ∀ (s : State) (i : Instr), s.mode = .running → s.pc.toNat ≤ 0xFFE →
    decodeWord (s.mem.read s.pc.toNat ++ s.mem.read (s.pc.toNat + 1)) = some i →
    step s = exec i { s with pc := s.pc + 2 }

/-- An unknown word: pc advances by 2, the diagnostic is recorded with the fetch address and the word, nothing else
changes, the step completes and the host is told (40_step_cycle.md R126). -/
def Obligations.UnknownOpcodeIsANoOpWithADiagnostic : Prop :=
  ∀ (s : State) (op : Word), s.mode = .running → s.pc.toNat ≤ 0xFFE →
    op = s.mem.read s.pc.toNat ++ s.mem.read (s.pc.toNat + 1) → decodeWord op = none →
    step s = .next { s with pc := s.pc + 2, events := .unknownOpcode s.pc op :: s.events } ∧
    (transition .step s).2 = .stepped (.executedUnknown s.pc op)

/-- While AWAITING_KEY any number of steps changes nothing, and the host is told `Suspended` (40_step_cycle.md R127; the
result is the spec's decision D24, log 26). -/
def Obligations.StepsWhileAwaitingKeyChangeNothing : Prop :=
  ∀ s : State, s.mode = .awaitingKey →
    (∀ k : Nat, Sys2Proof.core.run k s = .next s) ∧ transition .step s = (s, .stepped .suspended)

/-- A fetch above 0xFFE ends in FetchOutOfRange with pc, and the host finds the state unchanged. The spec's own decision D2
(40_step_cycle.md R121; log 11). -/
def Obligations.FetchAboveMemoryEndIsAnError : Prop :=
  ∀ s : State, s.mode = .running → 0xFFE < s.pc.toNat →
    step s = .fault (.fetchOutOfRange s.pc) ∧ transition .step s = (s, .stepped (.error (.fetchOutOfRange s.pc)))

/-- Exactly the instructions and conditions of the error table fault, each with its payload (60_exceptions.md R250, R253):
no other instruction can. DataOutOfRange and KeyOperandRange are the spec's own decisions D1 and D5 (logs 11, 10), and that
DXYN's range takes in clipped rows and is empty for N = 0 is D23 (log 23). -/
def Obligations.InstructionsFaultExactlyAsTabulated : Prop :=
  ∀ (i : Instr) (s : State) (f : Fault), exec i s = .fault f ↔
    (i = .ret ∧ s.sp = 0 ∧ f = .stackUnderflow (s.pc - 2) (encode i)) ∨
    (∃ nnn, i = .call nnn ∧ s.sp = 16 ∧ f = .stackOverflow (s.pc - 2) (encode i)) ∨
    (∃ x y n, i = .drw x y n ∧ 0 < n ∧ 0xFFF < s.I.toNat + n.val - 1 ∧
      f = .dataOutOfRange (max s.I.toNat 0x1000) (s.pc - 2) (encode i)) ∨
    (∃ x, i = .ldB x ∧ 0xFFF < s.I.toNat + 2 ∧
      f = .dataOutOfRange (max s.I.toNat 0x1000) (s.pc - 2) (encode i)) ∨
    (∃ x, (i = .ldStore x ∨ i = .ldLoad x) ∧ 0xFFF < s.I.toNat + x.val ∧
      f = .dataOutOfRange (max s.I.toNat 0x1000) (s.pc - 2) (encode i)) ∨
    (∃ x, (i = .skp x ∨ i = .sknp x) ∧ 15 < s.V[x].toNat ∧
      f = .keyOperandRange s.V[x] (s.pc - 2) (encode i))

/-- A failed step: the error carries the fetch address and the fetched word, and the state a host finds is the state before
with pc advanced by 2 and nothing else changed; FetchOutOfRange leaves pc too (40_step_cycle.md R128, 60_exceptions.md
R254; the spec's own decision D8, log 1). FetchOutOfRange, DataOutOfRange and KeyOperandRange are its decisions D2, D1
and D5 (logs 11, 10). -/
def Obligations.FailedStepChangesOnlyPc : Prop :=
  ∀ (s : State) (f : Fault), step s = .fault f →
    (0xFFE < s.pc.toNat ∧ f = .fetchOutOfRange s.pc ∧ stepOperation s = (s, .error f)) ∨
    (s.pc.toNat ≤ 0xFFE ∧ carries f s.pc (s.mem.read s.pc.toNat ++ s.mem.read (s.pc.toNat + 1)) ∧
      stepOperation s = ({ s with pc := s.pc + 2 }, .error f))

/-! ### Control transfer -/

/-- 1NNN: the word is group 1 with NNN, and pc becomes NNN zero-extended (41_flow.md R141). -/
def Obligations.JumpSetsPcToTheAddress : Prop :=
  ∀ (nnn : BitVec 12) (s : State),
    decodeWord (digitsAddr 0x1 nnn) = some (.jp nnn) ∧
    exec (.jp nnn) s = .next { s with pc := BitVec.ofNat 16 nnn.toNat }

/-- 3XNN and 4XNN skip the next word when VX equals, or differs from, NN; nothing else changes (41_flow.md R143, R144). -/
def Obligations.SkipsOnImmediateAdvancePc : Prop :=
  ∀ (x : Reg) (nn : Byte) (s : State),
    decodeWord (digitsByte 0x3 x nn) = some (.seImm x nn) ∧
    decodeWord (digitsByte 0x4 x nn) = some (.sneImm x nn) ∧
    exec (.seImm x nn) s = .next { s with pc := if s.V[x] = nn then s.pc + 2 else s.pc } ∧
    exec (.sneImm x nn) s = .next { s with pc := if s.V[x] ≠ nn then s.pc + 2 else s.pc }

/-- 5XY0 and 9XY0 skip the next word when VX equals, or differs from, VY; with X = Y the first always skips and the second
never (41_flow.md R145, R146). -/
def Obligations.SkipsOnRegistersAdvancePc : Prop :=
  (∀ (x y : Reg) (s : State),
    exec (.seReg x y) s = .next { s with pc := if s.V[x] = s.V[y] then s.pc + 2 else s.pc } ∧
    exec (.sneReg x y) s = .next { s with pc := if s.V[x] ≠ s.V[y] then s.pc + 2 else s.pc }) ∧
  (∀ (x : Reg) (s : State),
    exec (.seReg x x) s = .next { s with pc := s.pc + 2 } ∧ exec (.sneReg x x) s = .next s)

/-- BNNN: pc becomes NNN + V0, neither wrapped nor masked, whatever the digit at bits 11:8 (41_flow.md R147). -/
def Obligations.JumpWithOffsetAddsVZero : Prop :=
  ∀ (nnn : BitVec 12) (s : State),
    decodeWord (digitsAddr 0xB nnn) = some (.jpV0 nnn) ∧
    ∃ t, exec (.jpV0 nnn) s = .next t ∧ t = { s with pc := t.pc } ∧
      t.pc.toNat = nnn.toNat + (s.V[(0 : Reg)]).toNat

/-- 2NNN below 16 return addresses: the advanced pc goes to `stack[sp]`, sp grows by one, pc becomes NNN, every other stack
entry and everything else is unchanged (41_flow.md R142; the representation of the stack is the spec's decision D10,
log 6). With 16 held it is StackOverflow: `InstructionsFaultExactlyAsTabulated`. -/
def Obligations.CallPushesTheAdvancedPc : Prop :=
  ∀ (nnn : BitVec 12) (s : State) (h : s.sp.val < 16),
    ∃ t, exec (.call nnn) s = .next t ∧
      t = { s with stack := t.stack, sp := t.sp, pc := BitVec.ofNat 16 nnn.toNat } ∧
      t.sp.val = s.sp.val + 1 ∧ t.stack[s.sp.val] = s.pc ∧
      ∀ k : Fin 16, k.val ≠ s.sp.val → t.stack[k] = s.stack[k]

/-- 00EE with a return address: pc becomes the top entry, sp shrinks by one, the popped entry stays, nothing else changes
(41_flow.md R140; D10, log 6). With none it is StackUnderflow: `InstructionsFaultExactlyAsTabulated`. -/
def Obligations.ReturnPopsPc : Prop :=
  ∀ (s : State) (k : Fin 16), s.sp.val = k.val + 1 →
    exec .ret s = .next { s with pc := s.stack[k], sp := k.castSucc }

/-- "2NNN then 00EE leaves PC equal to its value immediately after the original 2NNN fetch" (41_flow.md R140): from any
depth below 16, wherever the return is fetched from, and the depth is restored (D10, log 6). -/
def Obligations.CallThenReturnRestoresPc : Prop :=
  ∀ (nnn : BitVec 12) (s : State) (p : Word), s.sp.val < 16 →
    ∃ t u, exec (.call nnn) s = .next t ∧ exec .ret { t with pc := p } = .next u ∧
      u.pc = s.pc ∧ u.sp = s.sp

/-- "Issuing 17 consecutive 2NNN calls without a matching return yields StackOverflow on the 17th" (41_flow.md R142): from
an empty stack up to 16 calls run, whatever their targets, and one more overflows. -/
def Obligations.SeventeenthNestedCallOverflows : Prop :=
  ∀ (as : List (BitVec 12)) (s : State), s.sp = 0 →
    (as.length ≤ 16 → ∃ t, callAll as s = .next t ∧ t.sp.val = as.length) ∧
    (as.length = 17 → ∃ addr op, callAll as s = .fault (.stackOverflow addr op))

/-! ### Load and ALU -/

/-- 6XNN, 7XNN and 8XY0: the word, and the new VX; VF is no exception and no flag is written
(42_alu.md R161, R162, R163). -/
def Obligations.LoadsAndImmediateAddWriteVX : Prop :=
  ∀ (x y : Reg) (nn : Byte) (s : State),
    decodeWord (digitsByte 0x6 x nn) = some (.ldImm x nn) ∧
    decodeWord (digitsByte 0x7 x nn) = some (.addImm x nn) ∧
    decodeWord (digits 0x8 x y 0) = some (.ldReg x y) ∧
    exec (.ldImm x nn) s = .next { s with V := s.V.set x nn } ∧
    exec (.addImm x nn) s =
      .next { s with V := s.V.set x (BitVec.ofNat 8 (((s.V[x]).toNat + nn.toNat) % 256)) } ∧
    exec (.ldReg x y) s = .next { s with V := s.V.set x s.V[y] }

/-- 8XY1, 8XY2 and 8XY3, bit by bit; VF is neither written nor cleared (42_alu.md R164, R165, R166). -/
def Obligations.LogicInstructionsCombineBits : Prop :=
  ∀ (x y : Reg) (s : State),
    decodeWord (digits 0x8 x y 1) = some (.orReg x y) ∧
    decodeWord (digits 0x8 x y 2) = some (.andReg x y) ∧
    decodeWord (digits 0x8 x y 3) = some (.xorReg x y) ∧
    ∃ o a e : Byte,
      exec (.orReg x y) s = .next { s with V := s.V.set x o } ∧
      exec (.andReg x y) s = .next { s with V := s.V.set x a } ∧
      exec (.xorReg x y) s = .next { s with V := s.V.set x e } ∧
      ∀ j : Nat, o.getLsbD j = ((s.V[x]).getLsbD j || (s.V[y]).getLsbD j) ∧
        a.getLsbD j = ((s.V[x]).getLsbD j && (s.V[y]).getLsbD j) ∧
        e.getLsbD j = ((s.V[x]).getLsbD j != (s.V[y]).getLsbD j)

/-- 8XY4: VX is the sum mod 256 and VF is 1 exactly when the 9-bit sum exceeds 255 (42_alu.md R168). When X = 15 VF holds
the flag: the spec's own decision D4 (R173; log 9). -/
def Obligations.AddWritesSumAndCarry : Prop :=
  ∀ (x y : Reg) (s : State), ∃ t, exec (.addReg x y) s = .next t ∧ onlyRegisters s t ∧
    registersKeptBut x s t ∧
    t.V[Reg.VF] = (if (s.V[x]).toNat + (s.V[y]).toNat > 255 then 1 else 0) ∧
    (x ≠ Reg.VF → (t.V[x]).toNat = ((s.V[x]).toNat + (s.V[y]).toNat) % 256)

/-- 8XY5 and 8XY7: VX is VX - VY, or VY - VX, mod 256, and VF is 1 exactly when there is no borrow (42_alu.md R167, R169,
R171). When X = 15 VF holds the flag: the spec's own decision D4 (R173; log 9). -/
def Obligations.SubtractionsWriteDifferenceAndNoBorrow : Prop :=
  ∀ (x y : Reg) (s : State), ∃ t u, exec (.sub x y) s = .next t ∧ exec (.subn x y) s = .next u ∧
    onlyRegisters s t ∧ onlyRegisters s u ∧ registersKeptBut x s t ∧ registersKeptBut x s u ∧
    t.V[Reg.VF] = (if (s.V[x]).toNat ≥ (s.V[y]).toNat then 1 else 0) ∧
    u.V[Reg.VF] = (if (s.V[y]).toNat ≥ (s.V[x]).toNat then 1 else 0) ∧
    (x ≠ Reg.VF → (t.V[x]).toNat = ((s.V[x]).toNat + 256 - (s.V[y]).toNat) % 256 ∧
      (u.V[x]).toNat = ((s.V[y]).toNat + 256 - (s.V[x]).toNat) % 256)

/-- 8XY6 and 8XYE: VX is VX shifted by one, a 0 entering, VY is not used, and VF is the bit shifted out (42_alu.md R167,
R170, R172). When X = 15 VF holds the flag: the spec's own decision D4 (R173; log 9). -/
def Obligations.ShiftsWriteResultAndBitShiftedOut : Prop :=
  ∀ (x y : Reg) (s : State), ∃ t u, exec (.shr x y) s = .next t ∧ exec (.shl x y) s = .next u ∧
    onlyRegisters s t ∧ onlyRegisters s u ∧ registersKeptBut x s t ∧ registersKeptBut x s u ∧
    (t.V[Reg.VF]).toNat = (s.V[x]).toNat % 2 ∧ (u.V[Reg.VF]).toNat = (s.V[x]).toNat / 128 ∧
    (x ≠ Reg.VF → (t.V[x]).toNat = (s.V[x]).toNat / 2 ∧ (u.V[x]).toNat = (s.V[x]).toNat * 2 % 256)

/-- CXNN: VX is some byte AND NN, the byte being the free value of this draw, and the next draw is another one; no flag
(42_alu.md R174). That the byte is free is the spec's own decision D15 (log 2); nothing here rests on its value. -/
def Obligations.RandomIsADrawMaskedByTheImmediate : Prop :=
  ∀ (x : Reg) (nn : Byte) (s : State),
    exec (.rnd x nn) s =
      .next { s with V := s.V.set x (Config.freeByte s.draws &&& nn), draws := s.draws + 1 } ∧
    ∀ r : Byte, ((rndWith r x nn s).V[x]) &&& ~~~nn = 0

/-- The instructions of 42_alu.md never fail, write nothing but VX and, for the five with a flag, VF (and the model's draw
counter, for CXNN), and what they write depends on nothing but VX, VY, the immediate and the draw (42_alu.md R160). That
CXNN's byte is a free draw is R174 with the spec's own decision D15; that it is fixed by the draw's number, so that equal
draw counters give equal bytes, is the model's choice (log 2), and the last clause rests on it for CXNN. -/
def Obligations.AluInstructionsReadAndWriteOnlyTheirOperands : Prop :=
  ∀ (i : Instr) (x y : Reg) (s : State), aluOperands i = some (x, y) →
    ∃ t, exec i s = .next t ∧ t = { s with V := t.V, draws := t.draws } ∧
      (∀ k : Reg, k ≠ x → (k ≠ Reg.VF ∨ flagAlu i = none) → t.V[k] = s.V[k]) ∧
      ∀ s' t' : State, exec i s' = .next t' → s'.V[x] = s.V[x] → s'.V[y] = s.V[y] → s'.draws = s.draws →
        t'.V[x] = t.V[x] ∧ (flagAlu i = some x → t'.V[Reg.VF] = t.V[Reg.VF])

/-! ### Index register and memory -/

/-- ANNN and FX29 set I: to NNN zero-extended, and to five times the low nibble of VX, whatever memory holds
(43_index_memory.md R190, R192). -/
def Obligations.IndexLoadsSetI : Prop :=
  ∀ (nnn : BitVec 12) (x : Reg) (s : State),
    decodeWord (digitsAddr 0xA nnn) = some (.ldI nnn) ∧
    decodeWord (digitsByte 0xF x 0x29) = some (.ldF x) ∧
    exec (.ldI nnn) s = .next { s with I := BitVec.ofNat 16 nnn.toNat } ∧
    exec (.ldF x) s = .next { s with I := BitVec.ofNat 16 (5 * ((s.V[x]).toNat % 16)) }

/-- FX1E: I plus VX mod 65536, a full 16-bit addition, no flag (43_index_memory.md R191). The carry into the high byte is
the spec's own decision D3 (log 14). -/
def Obligations.AddToIndexIsSixteenBit : Prop :=
  ∀ (x : Reg) (s : State),
    exec (.addI x) s = .next { s with I := BitVec.ofNat 16 ((s.I.toNat + (s.V[x]).toNat) % 65536) }

/-- FX33 in range: hundreds, tens and units of VX at I, I + 1 and I + 2; every other byte reads as before; nothing but
memory changes (43_index_memory.md R193). The error out of range is decision D1: `InstructionsFaultExactlyAsTabulated`. -/
def Obligations.DecimalDigitsAreStored : Prop :=
  ∀ (x : Reg) (s : State), s.I.toNat + 2 ≤ 0xFFF →
    ∃ t, exec (.ldB x) s = .next t ∧ onlyMemory s t ∧
      (t.mem.read (effectiveAddress s.I 0)).toNat = (s.V[x]).toNat / 100 ∧
      (t.mem.read (effectiveAddress s.I 1)).toNat = (s.V[x]).toNat / 10 % 10 ∧
      (t.mem.read (effectiveAddress s.I 2)).toNat = (s.V[x]).toNat % 10 ∧
      ∀ a : Nat, a < effectiveAddress s.I 0 ∨ effectiveAddress s.I 2 < a → t.mem.read a = s.mem.read a

/-- FX55 in range: V0..VX inclusive at I .. I + X; every other byte reads as before; I and the rest are unchanged
(43_index_memory.md R194). Inclusive, and I unchanged: the spec's own decision D6 (log 12). -/
def Obligations.RegistersAreStoredInclusive : Prop :=
  ∀ (x : Reg) (s : State), s.I.toNat + x.val ≤ 0xFFF →
    ∃ t, exec (.ldStore x) s = .next t ∧ onlyMemory s t ∧
      (∀ k : Reg, k ≤ x → t.mem.read (effectiveAddress s.I k.val) = s.V[k]) ∧
      ∀ a : Nat, a < effectiveAddress s.I 0 ∨ effectiveAddress s.I x.val < a → t.mem.read a = s.mem.read a

/-- FX65 in range: V0..VX inclusive from I .. I + X; registers above X, memory, I and the rest are unchanged
(43_index_memory.md R195). Inclusive, and I unchanged: the spec's own decision D6 (log 12). -/
def Obligations.RegistersAreLoadedInclusive : Prop :=
  ∀ (x : Reg) (s : State), s.I.toNat + x.val ≤ 0xFFF →
    ∃ t, exec (.ldLoad x) s = .next t ∧ onlyRegisters s t ∧
      (∀ k : Reg, k ≤ x → t.V[k] = s.mem.read (effectiveAddress s.I k.val)) ∧
      ∀ k : Reg, x < k → t.V[k] = s.V[k]

/-- "FX55 followed by FX65 with the same X and I restores the registers it saved" (43_index_memory.md R195): whatever the
registers hold in between. Rests on decision D6 (log 12). -/
def Obligations.StoreThenLoadRestoresRegisters : Prop :=
  ∀ (x : Reg) (s : State) (V : Vector Byte 16), s.I.toNat + x.val ≤ 0xFFF →
    ∃ t u, exec (.ldStore x) s = .next t ∧ exec (.ldLoad x) { t with V := V } = .next u ∧
      ∀ k : Reg, (k ≤ x → u.V[k] = s.V[k]) ∧ (x < k → u.V[k] = V[k])

/-- A store is seen by every later fetch (20_memory.md R74): after FX55 the word fetched at I + k is made of the stored
Vk and Vk+1, wherever code and data overlap. -/
def Obligations.StoredBytesAreFetched : Prop :=
  ∀ (x k j : Reg) (s : State), s.I.toNat + x.val ≤ 0xFFF → j.val = k.val + 1 → j ≤ x →
    ∃ t, exec (.ldStore x) s = .next t ∧
      ∀ i : Instr, decodeWord (s.V[k] ++ s.V[j]) = some i → s.mode = .running →
        step { t with pc := s.I + BitVec.ofNat 16 k.val } =
          exec i { t with pc := s.I + BitVec.ofNat 16 k.val + 2 }

/-! ### Display -/

/-- 00E0: every pixel 0, nothing else changes (44_display.md R211). That the redraw flag stays is the spec's own decision
D7 (log 13). -/
def Obligations.ClearZeroesEveryPixel : Prop :=
  ∀ s : State, ∃ t, exec .cls s = .next t ∧ t = { s with fb := t.fb } ∧
    ∀ (y : Fin 32) (x : Fin 64), t.fb.pixel y x = false

/-- DXYN in range: the framebuffer becomes `fb XOR S`, S the sprite clipped to 64x32; VF is 1 exactly when `fb AND S` was
not all zero, else 0; redraw is set; nothing else changes (44_display.md R212, R213). The coordinates are read before VF
is written. The bit order in a sprite byte is the spec's decision D13, from general knowledge (log 8); N = 0 and the
range of clipped rows D23 (log 23); the error D1. -/
def Obligations.DrawXorsTheClippedSprite : Prop :=
  ∀ (x y : Reg) (n : Fin 16) (s : State), n = 0 ∨ s.I.toNat + n.val - 1 ≤ 0xFFF →
    ∃ t, exec (.drw x y n) s = .next t ∧ t = { s with V := t.V, fb := t.fb, redraw := true } ∧
      (∀ (py : Fin 32) (px : Fin 64), t.fb.pixel py px =
        (s.fb.pixel py px ^^ spriteMask s.mem s.I (s.V[x]).toNat (s.V[y]).toNat n.val py px)) ∧
      (∀ k : Reg, k ≠ Reg.VF → t.V[k] = s.V[k]) ∧
      ((∃ (py : Fin 32) (px : Fin 64), s.fb.pixel py px = true ∧
          spriteMask s.mem s.I (s.V[x]).toNat (s.V[y]).toNat n.val py px = true) → t.V[Reg.VF] = 1) ∧
      ((∀ (py : Fin 32) (px : Fin 64), s.fb.pixel py px = true →
          spriteMask s.mem s.I (s.V[x]).toNat (s.V[y]).toNat n.val py px = false) → t.V[Reg.VF] = 0)

/-- A draw of no rows, or with its corner outside the screen, changes no pixel, sets VF to 0 and sets redraw
(44_display.md R212). N = 0 rests on decision D23 (log 23). -/
def Obligations.DrawOutsideTheScreenWritesNoPixel : Prop :=
  ∀ (x y : Reg) (n : Fin 16) (s : State), n = 0 ∨ s.I.toNat + n.val - 1 ≤ 0xFFF →
    (n = 0 ∨ 64 ≤ (s.V[x]).toNat ∨ 32 ≤ (s.V[y]).toNat) →
    exec (.drw x y n) s = .next { s with V := s.V.set 15 0, redraw := true }

/-- Two equal draws in succession, neither coordinate in VF: the framebuffer is as before the first, and the second VF is 1
exactly when the first turned a pixel on (44_display.md R214). -/
def Obligations.DrawingTwiceRestoresTheFramebuffer : Prop :=
  ∀ (x y : Reg) (n : Fin 16) (s : State), x ≠ Reg.VF → y ≠ Reg.VF → n = 0 ∨ s.I.toNat + n.val - 1 ≤ 0xFFF →
    ∃ t u, exec (.drw x y n) s = .next t ∧ exec (.drw x y n) t.advance = .next u ∧ u.fb = s.fb ∧
      (u.V[Reg.VF] = 1 ↔ ∃ (py : Fin 32) (px : Fin 64), s.fb.pixel py px = false ∧ t.fb.pixel py px = true)

/-- "00E0 followed by any DXYN draw produces a framebuffer containing only the newly drawn sprite pixels"
(44_display.md R211), and the draw reports no collision. Bit order: the spec's decision D13 (log 8). With N = 0 any I is
admitted, and that the draw completes there with VF = 0 and no pixel is the spec's own decision D23 (log 23); the range of
clipped rows is D23 too. -/
def Obligations.ClearThenDrawShowsOnlyTheSprite : Prop :=
  ∀ (x y : Reg) (n : Fin 16) (s : State), n = 0 ∨ s.I.toNat + n.val - 1 ≤ 0xFFF →
    ∃ t u, exec .cls s = .next t ∧ exec (.drw x y n) t.advance = .next u ∧ u.V[Reg.VF] = 0 ∧
      ∀ (py : Fin 32) (px : Fin 64),
        u.fb.pixel py px = spriteMask s.mem s.I (s.V[x]).toNat (s.V[y]).toNat n.val py px

/-! ### Keypad and timers -/

/-- EX9E and EXA1 with VX at most 15 skip when the slot is pressed, or not pressed; the keypad and the rest are unchanged
(45_keypad_timer_instr.md R230, R231). Above 15 it is KeyOperandRange, decision D5:
`InstructionsFaultExactlyAsTabulated`. -/
def Obligations.KeySkipsTestOneSlot : Prop :=
  ∀ (x : Reg) (k : Fin 16) (s : State), (s.V[x]).toNat = k.val →
    exec (.skp x) s = .next { s with pc := if s.key[k] = true then s.pc + 2 else s.pc } ∧
    exec (.sknp x) s = .next { s with pc := if s.key[k] = false then s.pc + 2 else s.pc }

/-- FX07, FX15 and FX18 move a byte between VX and a timer and do nothing else; FX18 emits no event, even over ST = 1
(45_keypad_timer_instr.md R232, R234, R235; no event is the spec's own decision D14, log 19). -/
def Obligations.TimerInstructionsMoveOneByte : Prop :=
  ∀ (x : Reg) (s : State),
    exec (.ldGetDT x) s = .next { s with V := s.V.set x s.DT } ∧
    exec (.ldSetDT x) s = .next { s with DT := s.V[x] } ∧
    exec (.ldSetST x) s = .next { s with ST := s.V[x] }

/-- "after FX15 with value v and n intervening ticks the value read is max(v - n, 0)" (45_keypad_timer_instr.md R232). -/
def Obligations.DelayTimerReadsWhatTicksLeave : Prop :=
  ∀ (x y : Reg) (n : Nat) (s : State), ∃ t u, exec (.ldSetDT x) s = .next t ∧
    exec (.ldGetDT y) (ticks n t).advance = .next u ∧ (u.V[y]).toNat = (s.V[x]).toNat - n

/-- FX0A starts the wait and does nothing else: VX is not written by this step (45_keypad_timer_instr.md R233). -/
def Obligations.KeyWaitInstructionOnlyStartsTheWait : Prop :=
  ∀ (x : Reg) (s : State), exec (.ldK x) s = .next { s with mode := .awaitingKey, waitReg := x }

/-- The key wait from FX0A to its end: any number of steps changes nothing; then a transition of a key to pressed writes its
index to VX, marks the slot and resumes RUNNING with pc untouched (45_keypad_timer_instr.md R233, 60_exceptions.md R266).
What counts as the key press is the spec's own decision D12 (log 18). -/
def Obligations.KeyPressEndsTheWait : Prop :=
  ∀ (x : Reg) (k : Fin 16) (n : Nat) (s : State), s.mode = .running → s.key[k] = false →
    ∃ t, exec (.ldK x) s = .next t ∧ Sys2Proof.core.run n t = .next t ∧
      setKey k.val true t = some { s with
        V := s.V.set x (BitVec.ofNat 8 k.val), key := s.key.set k true, waitReg := x }

/-! ### Operations of the host -/

/-- `tick_timers()`: both timers go down by one toward 0, one `tone_start` exactly when ST goes from 1 to 0, nothing else
changes, in either mode (60_exceptions.md R262, R263). -/
def Obligations.TickDecaysTimersAndSignalsTone : Prop :=
  ∀ s : State, ∃ t, transition .tickTimers s = (t, .none) ∧
    t = { s with DT := t.DT, ST := t.ST, events := t.events } ∧
    t.DT.toNat = s.DT.toNat - 1 ∧ t.ST.toNat = s.ST.toNat - 1 ∧
    t.events = (if s.ST.toNat = 1 then .toneStart :: s.events else s.events)

/-- FX18 with value v at least 1 causes exactly one `tone_start`, at the v-th tick after it, and FX18 with 0 none
(45_keypad_timer_instr.md R235): after n ticks one event if 1 ≤ v ≤ n, else none. That FX18 itself emits nothing, also
with 0 over ST = 1, is the spec's own decision D14 (log 19); `events` is the model's own history (log 3). -/
def Obligations.SoundTimerSignalsOnceAtItsEnd : Prop :=
  ∀ (x : Reg) (n : Nat) (s : State), ∃ t, exec (.ldSetST x) s = .next t ∧
    (ticks n t).events =
      (if 1 ≤ (s.V[x]).toNat ∧ (s.V[x]).toNat ≤ n then .toneStart :: s.events else s.events)

/-- `set_key` (60_exceptions.md R266, R267): an index outside 0..15 changes nothing; else the slot takes the value, and only
a transition to pressed while AWAITING_KEY also writes `V[wait_reg]` and resumes. The transition is the spec's own
decision D12 (log 18). -/
def Obligations.SetKeyFollowsTheWaitMachine : Prop :=
  (∀ (index : Int) (p : Bool) (s : State), index < 0 ∨ 15 < index →
    transition (.setKey index p) s = (s, .keyIndexRange)) ∧
  (∀ (k : Fin 16) (p : Bool) (s : State), s.mode = .running ∨ p = false ∨ s.key[k] = true →
    transition (.setKey k.val p) s = ({ s with key := s.key.set k p }, .ok)) ∧
  (∀ (k : Fin 16) (s : State), s.mode = .awaitingKey → s.key[k] = false →
    transition (.setKey k.val true) s =
      ({ s with key := s.key.set k true, V := s.V.set s.waitReg (BitVec.ofNat 8 k.val), mode := .running }, .ok))

/-- `load(image)`: above 3584 bytes LoadError and no change at all; else exactly the bytes from 0x200 are the image, every
other byte reads as before and nothing but memory changes (70_reset_and_hazards.md R304). That it does not reset, so that
nothing but memory changes, is the spec's own decision D17 (R305; log 20). -/
def Obligations.LoadCopiesTheImage : Prop :=
  ∀ (image : List Byte) (s : State),
    (3584 < image.length → transition (.load image) s = (s, .loadError)) ∧
    (image.length ≤ 3584 → ∃ t, transition (.load image) s = (t, .ok) ∧ onlyMemory s t ∧
      (∀ (k : Nat) (h : k < image.length), t.mem.read (0x200 + k) = image[k]) ∧
      ∀ a : Nat, a < 0x200 ∨ 0x200 + image.length ≤ a → t.mem.read a = s.mem.read a)

/-- `reset()` from any state: every piece of the spec's state has its value of 10_state.md R40 (70_reset_and_hazards.md
R300), and no event is emitted. Keypad, redraw, mode and wait_reg rest on the spec's own decision D11 (log 17); the font is
named, not its bytes (D21, log 4). That `reset()` emits nothing is the spec's own decision D14 (60_exceptions.md R264;
log 19), and that the model's own history `events` is kept across it is the model's choice (logs 3, 25). -/
def Obligations.ResetPutsEveryFieldToItsValue : Prop :=
  ∀ s : State, ∃ t, transition .reset s = (t, .none) ∧
    (∀ k : Fin 16, t.V[k] = 0 ∧ t.stack[k] = 0 ∧ t.key[k] = false) ∧
    t.I = 0 ∧ t.pc = 0x200 ∧ t.sp = 0 ∧ t.DT = 0 ∧ t.ST = 0 ∧
    (∀ (y : Fin 32) (x : Fin 64), t.fb.pixel y x = false) ∧
    t.redraw = false ∧ t.mode = .running ∧ t.waitReg = 0 ∧
    (∀ j : Nat, j < 80 → t.mem.read j = fontByte j) ∧ (∀ a : Nat, 80 ≤ a → a < 4096 → t.mem.read a = 0) ∧
    t.events = s.events

/-- `take_redraw_flag()` answers the flag and clears it, and touches nothing else (60_exceptions.md R270): asked twice, the
second answer is false. It and `reset()` are the only operations that clear the flag. -/
def Obligations.TakeRedrawFlagQueriesAndClears : Prop :=
  (∀ s : State, transition .takeRedrawFlag s = ({ s with redraw := false }, .redraw s.redraw) ∧
    (transition .takeRedrawFlag (transition .takeRedrawFlag s).1).2 = .redraw false) ∧
  (∀ (op : Op) (s : State), s.redraw = true → (transition op s).1.redraw = false → op = .takeRedrawFlag ∨ op = .reset)

/-! ### The whole machine -/

/-- What each instruction can change, for every kind of state (10_state.md R23, R24, R28..R31; 20_memory.md R77): the general
registers only by the instructions of the register table (which register each writes is
`RegistersChangeOnlyWhereTabulated`), memory only by
FX33 and FX55, I only by ANNN, FX1E and FX29, the stack only by 2NNN and 00EE, DT only by FX15, ST only by FX18, the
framebuffer only by 00E0 and DXYN, redraw only by DXYN, mode and wait_reg only by FX0A, pc only by the control transfers
and key skips; the keypad by none, and no instruction emits an event. That 00E0 leaves redraw is the spec's own decision D7
(log 13), that FX55 and FX65 leave I is D6 (log 12), that FX18 emits no event is D14 (log 19); `events` and `draws` are
the model's own fields (logs 3, 2), so their clauses are about the model's form. -/
def Obligations.EachKindOfStateHasItsWriters : Prop :=
  ∀ (i : Instr) (s t : State), exec i s = .next t →
    (t.V ≠ s.V → ∃ k, mayWriteRegister i k) ∧
    (t.mem ≠ s.mem → ∃ x, i = .ldB x ∨ i = .ldStore x) ∧
    (t.I ≠ s.I → (∃ nnn, i = .ldI nnn) ∨ ∃ x, i = .addI x ∨ i = .ldF x) ∧
    ((t.sp ≠ s.sp ∨ t.stack ≠ s.stack) → i = .ret ∨ ∃ nnn, i = .call nnn) ∧
    (t.DT ≠ s.DT → ∃ x, i = .ldSetDT x) ∧
    (t.ST ≠ s.ST → ∃ x, i = .ldSetST x) ∧
    t.key = s.key ∧
    (t.fb ≠ s.fb → i = .cls ∨ ∃ x y n, i = .drw x y n) ∧
    (t.redraw ≠ s.redraw → ∃ x y n, i = .drw x y n) ∧
    ((t.mode ≠ s.mode ∨ t.waitReg ≠ s.waitReg) → ∃ x, i = .ldK x) ∧
    (t.pc ≠ s.pc → i = .ret ∨ (∃ nnn, i = .jp nnn ∨ i = .call nnn ∨ i = .jpV0 nnn) ∨
      (∃ x nn, i = .seImm x nn ∨ i = .sneImm x nn) ∨ (∃ x y, i = .seReg x y ∨ i = .sneReg x y) ∨
      ∃ x, i = .skp x ∨ i = .sknp x) ∧
    t.events = s.events ∧
    (t.draws ≠ s.draws → ∃ x nn, i = .rnd x nn)

/-- A general register changes only where the register table says: VX of the loading and ALU instructions, V0..VX of FX65,
and VF as a side effect of exactly 8XY4, 8XY5, 8XY6, 8XY7, 8XYE and DXYN (10_state.md R22, R23). That VX is the last
register FX65 writes is the spec's own decision D6 (log 12). -/
def Obligations.RegistersChangeOnlyWhereTabulated : Prop :=
  ∀ (i : Instr) (k : Reg) (s t : State), exec i s = .next t → ¬ mayWriteRegister i k → t.V[k] = s.V[k]

/-- A self-jump at the halt address is a fixed point: no number of steps changes anything, and under any interleaving of
steps and ticks, none of which fails, "only `DT` and `ST` still change, by ticks" and the machine stays there
(70_reset_and_hazards.md R320; the model's own history records the tones, log 3). That this is the state a run ends in is
the spec's own decision D16 (log 28). -/
def Obligations.SelfJumpIsAFixedPoint : Prop :=
  ∀ (h : BitVec 12) (s : State), s.atSelfJump h →
    (∀ k : Nat, Sys2Proof.core.run k s = .next s) ∧
    ∀ ops : List Op, (∀ op ∈ ops, op = .step ∨ op = .tickTimers) →
      ∃ t, runUntilError ops s = .next t ∧ t.atSelfJump h ∧ t = { s with DT := t.DT, ST := t.ST, events := t.events }

/-- The invariant holds after reset: memory in canonical form, pc at most 0x10FE, return addresses at most 0x1000. -/
def Obligations.ResetMeetsTheInvariant : Prop :=
  State.reset.Inv

/-- Every step keeps the invariant, from every state that has it (10_state.md R26, "the largest value any rule can produce
is 0x10FE"; 41_flow.md R140, "all values a 2NNN can have pushed are at most 0x1000"; the canonical memory is the model's
form, log 5). -/
def Obligations.EveryStepKeepsTheInvariant : Prop :=
  ∀ s t : State, s.Inv → step s = .next t → t.Inv

/-- Every interleaving of steps, ticks, key events, loads, resets and display reads keeps the invariant, steps that end in
an error and are continued included (60_exceptions.md R254, R271). That each operation is atomic is the spec's own decision
D18 (log 21); the state a failed step leaves, from which the run goes on, is its decision D8 (40_step_cycle.md R128; log 1,
which says that a statement about `runOps` after an error is only as sound as D8); the canonical memory is the model's own
form (log 5). -/
def Obligations.EveryInterleavingKeepsTheInvariant : Prop :=
  ∀ (ops : List Op) (s : State), s.Inv → (runOps ops s).Inv

/-- When a run has ended, exactly: it is RUNNING at the self-jump, and no step of it, anywhere in it, returned an `Error`:
"A state reached through an `Error` result is never the end of a run" (70_reset_and_hazards.md R320, 40_step_cycle.md R128,
93_implementation_defined.md U3: the fault "is never cleared", by no later operation). What the end is, is the spec's own
decision D16 (log 28). -/
def Obligations.RunHasEndedOnlyWithoutAnError : Prop :=
  ∀ (ops : List Op) (s : State) (h : BitVec 12), RunEnded ops s h ↔
    (runOps ops s).atSelfJump h ∧
    ∀ (pre post : List Op) (f : Fault), ops = pre ++ .step :: post →
      (transition .step (runOps pre s)).2 ≠ .stepped (.error f)
end

