-- ==== Sys2Proof/Laws/State.lean ====
section
/-!
SUPPORT. One lemma for each field of State under each named update, so that no proof unfolds a record update; and the
reads of a register after a write.
-/

namespace Sys2Proof.Machine

/-! ### writeV -/

@[simp] theorem State.writeV_V (s : State) (x : Reg) (v : Byte) : (s.writeV x v).V = s.V.set x.val v := rfl
@[simp] theorem State.writeV_I (s : State) (x : Reg) (v : Byte) : (s.writeV x v).I = s.I := rfl
@[simp] theorem State.writeV_pc (s : State) (x : Reg) (v : Byte) : (s.writeV x v).pc = s.pc := rfl
@[simp] theorem State.writeV_stack (s : State) (x : Reg) (v : Byte) : (s.writeV x v).stack = s.stack := rfl
@[simp] theorem State.writeV_sp (s : State) (x : Reg) (v : Byte) : (s.writeV x v).sp = s.sp := rfl
@[simp] theorem State.writeV_DT (s : State) (x : Reg) (v : Byte) : (s.writeV x v).DT = s.DT := rfl
@[simp] theorem State.writeV_ST (s : State) (x : Reg) (v : Byte) : (s.writeV x v).ST = s.ST := rfl
@[simp] theorem State.writeV_key (s : State) (x : Reg) (v : Byte) : (s.writeV x v).key = s.key := rfl
@[simp] theorem State.writeV_fb (s : State) (x : Reg) (v : Byte) : (s.writeV x v).fb = s.fb := rfl
@[simp] theorem State.writeV_redraw (s : State) (x : Reg) (v : Byte) : (s.writeV x v).redraw = s.redraw := rfl
@[simp] theorem State.writeV_mode (s : State) (x : Reg) (v : Byte) : (s.writeV x v).mode = s.mode := rfl
@[simp] theorem State.writeV_waitReg (s : State) (x : Reg) (v : Byte) : (s.writeV x v).waitReg = s.waitReg := rfl
@[simp] theorem State.writeV_mem (s : State) (x : Reg) (v : Byte) : (s.writeV x v).mem = s.mem := rfl
@[simp] theorem State.writeV_draws (s : State) (x : Reg) (v : Byte) : (s.writeV x v).draws = s.draws := rfl
@[simp] theorem State.writeV_events (s : State) (x : Reg) (v : Byte) : (s.writeV x v).events = s.events := rfl

/-! ### setI -/

@[simp] theorem State.setI_V (s : State) (v : Word) : (s.setI v).V = s.V := rfl
@[simp] theorem State.setI_I (s : State) (v : Word) : (s.setI v).I = v := rfl
@[simp] theorem State.setI_pc (s : State) (v : Word) : (s.setI v).pc = s.pc := rfl
@[simp] theorem State.setI_stack (s : State) (v : Word) : (s.setI v).stack = s.stack := rfl
@[simp] theorem State.setI_sp (s : State) (v : Word) : (s.setI v).sp = s.sp := rfl
@[simp] theorem State.setI_DT (s : State) (v : Word) : (s.setI v).DT = s.DT := rfl
@[simp] theorem State.setI_ST (s : State) (v : Word) : (s.setI v).ST = s.ST := rfl
@[simp] theorem State.setI_key (s : State) (v : Word) : (s.setI v).key = s.key := rfl
@[simp] theorem State.setI_fb (s : State) (v : Word) : (s.setI v).fb = s.fb := rfl
@[simp] theorem State.setI_redraw (s : State) (v : Word) : (s.setI v).redraw = s.redraw := rfl
@[simp] theorem State.setI_mode (s : State) (v : Word) : (s.setI v).mode = s.mode := rfl
@[simp] theorem State.setI_waitReg (s : State) (v : Word) : (s.setI v).waitReg = s.waitReg := rfl
@[simp] theorem State.setI_mem (s : State) (v : Word) : (s.setI v).mem = s.mem := rfl
@[simp] theorem State.setI_draws (s : State) (v : Word) : (s.setI v).draws = s.draws := rfl
@[simp] theorem State.setI_events (s : State) (v : Word) : (s.setI v).events = s.events := rfl

/-! ### setPc -/

@[simp] theorem State.setPc_V (s : State) (v : Word) : (s.setPc v).V = s.V := rfl
@[simp] theorem State.setPc_I (s : State) (v : Word) : (s.setPc v).I = s.I := rfl
@[simp] theorem State.setPc_pc (s : State) (v : Word) : (s.setPc v).pc = v := rfl
@[simp] theorem State.setPc_stack (s : State) (v : Word) : (s.setPc v).stack = s.stack := rfl
@[simp] theorem State.setPc_sp (s : State) (v : Word) : (s.setPc v).sp = s.sp := rfl
@[simp] theorem State.setPc_DT (s : State) (v : Word) : (s.setPc v).DT = s.DT := rfl
@[simp] theorem State.setPc_ST (s : State) (v : Word) : (s.setPc v).ST = s.ST := rfl
@[simp] theorem State.setPc_key (s : State) (v : Word) : (s.setPc v).key = s.key := rfl
@[simp] theorem State.setPc_fb (s : State) (v : Word) : (s.setPc v).fb = s.fb := rfl
@[simp] theorem State.setPc_redraw (s : State) (v : Word) : (s.setPc v).redraw = s.redraw := rfl
@[simp] theorem State.setPc_mode (s : State) (v : Word) : (s.setPc v).mode = s.mode := rfl
@[simp] theorem State.setPc_waitReg (s : State) (v : Word) : (s.setPc v).waitReg = s.waitReg := rfl
@[simp] theorem State.setPc_mem (s : State) (v : Word) : (s.setPc v).mem = s.mem := rfl
@[simp] theorem State.setPc_draws (s : State) (v : Word) : (s.setPc v).draws = s.draws := rfl
@[simp] theorem State.setPc_events (s : State) (v : Word) : (s.setPc v).events = s.events := rfl

/-! ### advance -/

@[simp] theorem State.advance_V (s : State) : s.advance.V = s.V := rfl
@[simp] theorem State.advance_I (s : State) : s.advance.I = s.I := rfl
@[simp] theorem State.advance_pc (s : State) : s.advance.pc = s.pc + 2 := rfl
@[simp] theorem State.advance_stack (s : State) : s.advance.stack = s.stack := rfl
@[simp] theorem State.advance_sp (s : State) : s.advance.sp = s.sp := rfl
@[simp] theorem State.advance_DT (s : State) : s.advance.DT = s.DT := rfl
@[simp] theorem State.advance_ST (s : State) : s.advance.ST = s.ST := rfl
@[simp] theorem State.advance_key (s : State) : s.advance.key = s.key := rfl
@[simp] theorem State.advance_fb (s : State) : s.advance.fb = s.fb := rfl
@[simp] theorem State.advance_redraw (s : State) : s.advance.redraw = s.redraw := rfl
@[simp] theorem State.advance_mode (s : State) : s.advance.mode = s.mode := rfl
@[simp] theorem State.advance_waitReg (s : State) : s.advance.waitReg = s.waitReg := rfl
@[simp] theorem State.advance_mem (s : State) : s.advance.mem = s.mem := rfl
@[simp] theorem State.advance_draws (s : State) : s.advance.draws = s.draws := rfl
@[simp] theorem State.advance_events (s : State) : s.advance.events = s.events := rfl

/-! ### push -/

@[simp] theorem State.push_V (s : State) (v : Word) (h : s.sp.val < 16) : (s.push v h).V = s.V := rfl
@[simp] theorem State.push_I (s : State) (v : Word) (h : s.sp.val < 16) : (s.push v h).I = s.I := rfl
@[simp] theorem State.push_pc (s : State) (v : Word) (h : s.sp.val < 16) : (s.push v h).pc = s.pc := rfl
@[simp] theorem State.push_stack (s : State) (v : Word) (h : s.sp.val < 16) : (s.push v h).stack = s.stack.set s.sp.val v h := rfl
@[simp] theorem State.push_sp (s : State) (v : Word) (h : s.sp.val < 16) : (s.push v h).sp = ⟨s.sp.val + 1, Nat.succ_lt_succ h⟩ := rfl
@[simp] theorem State.push_DT (s : State) (v : Word) (h : s.sp.val < 16) : (s.push v h).DT = s.DT := rfl
@[simp] theorem State.push_ST (s : State) (v : Word) (h : s.sp.val < 16) : (s.push v h).ST = s.ST := rfl
@[simp] theorem State.push_key (s : State) (v : Word) (h : s.sp.val < 16) : (s.push v h).key = s.key := rfl
@[simp] theorem State.push_fb (s : State) (v : Word) (h : s.sp.val < 16) : (s.push v h).fb = s.fb := rfl
@[simp] theorem State.push_redraw (s : State) (v : Word) (h : s.sp.val < 16) : (s.push v h).redraw = s.redraw := rfl
@[simp] theorem State.push_mode (s : State) (v : Word) (h : s.sp.val < 16) : (s.push v h).mode = s.mode := rfl
@[simp] theorem State.push_waitReg (s : State) (v : Word) (h : s.sp.val < 16) : (s.push v h).waitReg = s.waitReg := rfl
@[simp] theorem State.push_mem (s : State) (v : Word) (h : s.sp.val < 16) : (s.push v h).mem = s.mem := rfl
@[simp] theorem State.push_draws (s : State) (v : Word) (h : s.sp.val < 16) : (s.push v h).draws = s.draws := rfl
@[simp] theorem State.push_events (s : State) (v : Word) (h : s.sp.val < 16) : (s.push v h).events = s.events := rfl

/-! ### popPc -/

@[simp] theorem State.popPc_V (s : State) : s.popPc.V = s.V := rfl
@[simp] theorem State.popPc_I (s : State) : s.popPc.I = s.I := rfl
@[simp] theorem State.popPc_pc (s : State) : s.popPc.pc = s.stack[s.sp.val - 1]'(by omega) := rfl
@[simp] theorem State.popPc_stack (s : State) : s.popPc.stack = s.stack := rfl
@[simp] theorem State.popPc_sp (s : State) : s.popPc.sp = ⟨s.sp.val - 1, by omega⟩ := rfl
@[simp] theorem State.popPc_DT (s : State) : s.popPc.DT = s.DT := rfl
@[simp] theorem State.popPc_ST (s : State) : s.popPc.ST = s.ST := rfl
@[simp] theorem State.popPc_key (s : State) : s.popPc.key = s.key := rfl
@[simp] theorem State.popPc_fb (s : State) : s.popPc.fb = s.fb := rfl
@[simp] theorem State.popPc_redraw (s : State) : s.popPc.redraw = s.redraw := rfl
@[simp] theorem State.popPc_mode (s : State) : s.popPc.mode = s.mode := rfl
@[simp] theorem State.popPc_waitReg (s : State) : s.popPc.waitReg = s.waitReg := rfl
@[simp] theorem State.popPc_mem (s : State) : s.popPc.mem = s.mem := rfl
@[simp] theorem State.popPc_draws (s : State) : s.popPc.draws = s.draws := rfl
@[simp] theorem State.popPc_events (s : State) : s.popPc.events = s.events := rfl

/-! ### setDT -/

@[simp] theorem State.setDT_V (s : State) (v : Byte) : (s.setDT v).V = s.V := rfl
@[simp] theorem State.setDT_I (s : State) (v : Byte) : (s.setDT v).I = s.I := rfl
@[simp] theorem State.setDT_pc (s : State) (v : Byte) : (s.setDT v).pc = s.pc := rfl
@[simp] theorem State.setDT_stack (s : State) (v : Byte) : (s.setDT v).stack = s.stack := rfl
@[simp] theorem State.setDT_sp (s : State) (v : Byte) : (s.setDT v).sp = s.sp := rfl
@[simp] theorem State.setDT_DT (s : State) (v : Byte) : (s.setDT v).DT = v := rfl
@[simp] theorem State.setDT_ST (s : State) (v : Byte) : (s.setDT v).ST = s.ST := rfl
@[simp] theorem State.setDT_key (s : State) (v : Byte) : (s.setDT v).key = s.key := rfl
@[simp] theorem State.setDT_fb (s : State) (v : Byte) : (s.setDT v).fb = s.fb := rfl
@[simp] theorem State.setDT_redraw (s : State) (v : Byte) : (s.setDT v).redraw = s.redraw := rfl
@[simp] theorem State.setDT_mode (s : State) (v : Byte) : (s.setDT v).mode = s.mode := rfl
@[simp] theorem State.setDT_waitReg (s : State) (v : Byte) : (s.setDT v).waitReg = s.waitReg := rfl
@[simp] theorem State.setDT_mem (s : State) (v : Byte) : (s.setDT v).mem = s.mem := rfl
@[simp] theorem State.setDT_draws (s : State) (v : Byte) : (s.setDT v).draws = s.draws := rfl
@[simp] theorem State.setDT_events (s : State) (v : Byte) : (s.setDT v).events = s.events := rfl

/-! ### setST -/

@[simp] theorem State.setST_V (s : State) (v : Byte) : (s.setST v).V = s.V := rfl
@[simp] theorem State.setST_I (s : State) (v : Byte) : (s.setST v).I = s.I := rfl
@[simp] theorem State.setST_pc (s : State) (v : Byte) : (s.setST v).pc = s.pc := rfl
@[simp] theorem State.setST_stack (s : State) (v : Byte) : (s.setST v).stack = s.stack := rfl
@[simp] theorem State.setST_sp (s : State) (v : Byte) : (s.setST v).sp = s.sp := rfl
@[simp] theorem State.setST_DT (s : State) (v : Byte) : (s.setST v).DT = s.DT := rfl
@[simp] theorem State.setST_ST (s : State) (v : Byte) : (s.setST v).ST = v := rfl
@[simp] theorem State.setST_key (s : State) (v : Byte) : (s.setST v).key = s.key := rfl
@[simp] theorem State.setST_fb (s : State) (v : Byte) : (s.setST v).fb = s.fb := rfl
@[simp] theorem State.setST_redraw (s : State) (v : Byte) : (s.setST v).redraw = s.redraw := rfl
@[simp] theorem State.setST_mode (s : State) (v : Byte) : (s.setST v).mode = s.mode := rfl
@[simp] theorem State.setST_waitReg (s : State) (v : Byte) : (s.setST v).waitReg = s.waitReg := rfl
@[simp] theorem State.setST_mem (s : State) (v : Byte) : (s.setST v).mem = s.mem := rfl
@[simp] theorem State.setST_draws (s : State) (v : Byte) : (s.setST v).draws = s.draws := rfl
@[simp] theorem State.setST_events (s : State) (v : Byte) : (s.setST v).events = s.events := rfl

/-! ### writeKey -/

@[simp] theorem State.writeKey_V (s : State) (k : Fin 16) (p : Bool) : (s.writeKey k p).V = s.V := rfl
@[simp] theorem State.writeKey_I (s : State) (k : Fin 16) (p : Bool) : (s.writeKey k p).I = s.I := rfl
@[simp] theorem State.writeKey_pc (s : State) (k : Fin 16) (p : Bool) : (s.writeKey k p).pc = s.pc := rfl
@[simp] theorem State.writeKey_stack (s : State) (k : Fin 16) (p : Bool) : (s.writeKey k p).stack = s.stack := rfl
@[simp] theorem State.writeKey_sp (s : State) (k : Fin 16) (p : Bool) : (s.writeKey k p).sp = s.sp := rfl
@[simp] theorem State.writeKey_DT (s : State) (k : Fin 16) (p : Bool) : (s.writeKey k p).DT = s.DT := rfl
@[simp] theorem State.writeKey_ST (s : State) (k : Fin 16) (p : Bool) : (s.writeKey k p).ST = s.ST := rfl
@[simp] theorem State.writeKey_key (s : State) (k : Fin 16) (p : Bool) : (s.writeKey k p).key = s.key.set k.val p := rfl
@[simp] theorem State.writeKey_fb (s : State) (k : Fin 16) (p : Bool) : (s.writeKey k p).fb = s.fb := rfl
@[simp] theorem State.writeKey_redraw (s : State) (k : Fin 16) (p : Bool) : (s.writeKey k p).redraw = s.redraw := rfl
@[simp] theorem State.writeKey_mode (s : State) (k : Fin 16) (p : Bool) : (s.writeKey k p).mode = s.mode := rfl
@[simp] theorem State.writeKey_waitReg (s : State) (k : Fin 16) (p : Bool) : (s.writeKey k p).waitReg = s.waitReg := rfl
@[simp] theorem State.writeKey_mem (s : State) (k : Fin 16) (p : Bool) : (s.writeKey k p).mem = s.mem := rfl
@[simp] theorem State.writeKey_draws (s : State) (k : Fin 16) (p : Bool) : (s.writeKey k p).draws = s.draws := rfl
@[simp] theorem State.writeKey_events (s : State) (k : Fin 16) (p : Bool) : (s.writeKey k p).events = s.events := rfl

/-! ### startWait -/

@[simp] theorem State.startWait_V (s : State) (x : Reg) : (s.startWait x).V = s.V := rfl
@[simp] theorem State.startWait_I (s : State) (x : Reg) : (s.startWait x).I = s.I := rfl
@[simp] theorem State.startWait_pc (s : State) (x : Reg) : (s.startWait x).pc = s.pc := rfl
@[simp] theorem State.startWait_stack (s : State) (x : Reg) : (s.startWait x).stack = s.stack := rfl
@[simp] theorem State.startWait_sp (s : State) (x : Reg) : (s.startWait x).sp = s.sp := rfl
@[simp] theorem State.startWait_DT (s : State) (x : Reg) : (s.startWait x).DT = s.DT := rfl
@[simp] theorem State.startWait_ST (s : State) (x : Reg) : (s.startWait x).ST = s.ST := rfl
@[simp] theorem State.startWait_key (s : State) (x : Reg) : (s.startWait x).key = s.key := rfl
@[simp] theorem State.startWait_fb (s : State) (x : Reg) : (s.startWait x).fb = s.fb := rfl
@[simp] theorem State.startWait_redraw (s : State) (x : Reg) : (s.startWait x).redraw = s.redraw := rfl
@[simp] theorem State.startWait_mode (s : State) (x : Reg) : (s.startWait x).mode = .awaitingKey := rfl
@[simp] theorem State.startWait_waitReg (s : State) (x : Reg) : (s.startWait x).waitReg = x := rfl
@[simp] theorem State.startWait_mem (s : State) (x : Reg) : (s.startWait x).mem = s.mem := rfl
@[simp] theorem State.startWait_draws (s : State) (x : Reg) : (s.startWait x).draws = s.draws := rfl
@[simp] theorem State.startWait_events (s : State) (x : Reg) : (s.startWait x).events = s.events := rfl

/-! ### resume -/

@[simp] theorem State.resume_V (s : State) : s.resume.V = s.V := rfl
@[simp] theorem State.resume_I (s : State) : s.resume.I = s.I := rfl
@[simp] theorem State.resume_pc (s : State) : s.resume.pc = s.pc := rfl
@[simp] theorem State.resume_stack (s : State) : s.resume.stack = s.stack := rfl
@[simp] theorem State.resume_sp (s : State) : s.resume.sp = s.sp := rfl
@[simp] theorem State.resume_DT (s : State) : s.resume.DT = s.DT := rfl
@[simp] theorem State.resume_ST (s : State) : s.resume.ST = s.ST := rfl
@[simp] theorem State.resume_key (s : State) : s.resume.key = s.key := rfl
@[simp] theorem State.resume_fb (s : State) : s.resume.fb = s.fb := rfl
@[simp] theorem State.resume_redraw (s : State) : s.resume.redraw = s.redraw := rfl
@[simp] theorem State.resume_mode (s : State) : s.resume.mode = .running := rfl
@[simp] theorem State.resume_waitReg (s : State) : s.resume.waitReg = s.waitReg := rfl
@[simp] theorem State.resume_mem (s : State) : s.resume.mem = s.mem := rfl
@[simp] theorem State.resume_draws (s : State) : s.resume.draws = s.draws := rfl
@[simp] theorem State.resume_events (s : State) : s.resume.events = s.events := rfl

/-! ### setRedraw -/

@[simp] theorem State.setRedraw_V (s : State) (b : Bool) : (s.setRedraw b).V = s.V := rfl
@[simp] theorem State.setRedraw_I (s : State) (b : Bool) : (s.setRedraw b).I = s.I := rfl
@[simp] theorem State.setRedraw_pc (s : State) (b : Bool) : (s.setRedraw b).pc = s.pc := rfl
@[simp] theorem State.setRedraw_stack (s : State) (b : Bool) : (s.setRedraw b).stack = s.stack := rfl
@[simp] theorem State.setRedraw_sp (s : State) (b : Bool) : (s.setRedraw b).sp = s.sp := rfl
@[simp] theorem State.setRedraw_DT (s : State) (b : Bool) : (s.setRedraw b).DT = s.DT := rfl
@[simp] theorem State.setRedraw_ST (s : State) (b : Bool) : (s.setRedraw b).ST = s.ST := rfl
@[simp] theorem State.setRedraw_key (s : State) (b : Bool) : (s.setRedraw b).key = s.key := rfl
@[simp] theorem State.setRedraw_fb (s : State) (b : Bool) : (s.setRedraw b).fb = s.fb := rfl
@[simp] theorem State.setRedraw_redraw (s : State) (b : Bool) : (s.setRedraw b).redraw = b := rfl
@[simp] theorem State.setRedraw_mode (s : State) (b : Bool) : (s.setRedraw b).mode = s.mode := rfl
@[simp] theorem State.setRedraw_waitReg (s : State) (b : Bool) : (s.setRedraw b).waitReg = s.waitReg := rfl
@[simp] theorem State.setRedraw_mem (s : State) (b : Bool) : (s.setRedraw b).mem = s.mem := rfl
@[simp] theorem State.setRedraw_draws (s : State) (b : Bool) : (s.setRedraw b).draws = s.draws := rfl
@[simp] theorem State.setRedraw_events (s : State) (b : Bool) : (s.setRedraw b).events = s.events := rfl

/-! ### setFb -/

@[simp] theorem State.setFb_V (s : State) (f : Framebuffer) : (s.setFb f).V = s.V := rfl
@[simp] theorem State.setFb_I (s : State) (f : Framebuffer) : (s.setFb f).I = s.I := rfl
@[simp] theorem State.setFb_pc (s : State) (f : Framebuffer) : (s.setFb f).pc = s.pc := rfl
@[simp] theorem State.setFb_stack (s : State) (f : Framebuffer) : (s.setFb f).stack = s.stack := rfl
@[simp] theorem State.setFb_sp (s : State) (f : Framebuffer) : (s.setFb f).sp = s.sp := rfl
@[simp] theorem State.setFb_DT (s : State) (f : Framebuffer) : (s.setFb f).DT = s.DT := rfl
@[simp] theorem State.setFb_ST (s : State) (f : Framebuffer) : (s.setFb f).ST = s.ST := rfl
@[simp] theorem State.setFb_key (s : State) (f : Framebuffer) : (s.setFb f).key = s.key := rfl
@[simp] theorem State.setFb_fb (s : State) (f : Framebuffer) : (s.setFb f).fb = f := rfl
@[simp] theorem State.setFb_redraw (s : State) (f : Framebuffer) : (s.setFb f).redraw = s.redraw := rfl
@[simp] theorem State.setFb_mode (s : State) (f : Framebuffer) : (s.setFb f).mode = s.mode := rfl
@[simp] theorem State.setFb_waitReg (s : State) (f : Framebuffer) : (s.setFb f).waitReg = s.waitReg := rfl
@[simp] theorem State.setFb_mem (s : State) (f : Framebuffer) : (s.setFb f).mem = s.mem := rfl
@[simp] theorem State.setFb_draws (s : State) (f : Framebuffer) : (s.setFb f).draws = s.draws := rfl
@[simp] theorem State.setFb_events (s : State) (f : Framebuffer) : (s.setFb f).events = s.events := rfl

/-! ### setMem -/

@[simp] theorem State.setMem_V (s : State) (m : Memory) : (s.setMem m).V = s.V := rfl
@[simp] theorem State.setMem_I (s : State) (m : Memory) : (s.setMem m).I = s.I := rfl
@[simp] theorem State.setMem_pc (s : State) (m : Memory) : (s.setMem m).pc = s.pc := rfl
@[simp] theorem State.setMem_stack (s : State) (m : Memory) : (s.setMem m).stack = s.stack := rfl
@[simp] theorem State.setMem_sp (s : State) (m : Memory) : (s.setMem m).sp = s.sp := rfl
@[simp] theorem State.setMem_DT (s : State) (m : Memory) : (s.setMem m).DT = s.DT := rfl
@[simp] theorem State.setMem_ST (s : State) (m : Memory) : (s.setMem m).ST = s.ST := rfl
@[simp] theorem State.setMem_key (s : State) (m : Memory) : (s.setMem m).key = s.key := rfl
@[simp] theorem State.setMem_fb (s : State) (m : Memory) : (s.setMem m).fb = s.fb := rfl
@[simp] theorem State.setMem_redraw (s : State) (m : Memory) : (s.setMem m).redraw = s.redraw := rfl
@[simp] theorem State.setMem_mode (s : State) (m : Memory) : (s.setMem m).mode = s.mode := rfl
@[simp] theorem State.setMem_waitReg (s : State) (m : Memory) : (s.setMem m).waitReg = s.waitReg := rfl
@[simp] theorem State.setMem_mem (s : State) (m : Memory) : (s.setMem m).mem = m := rfl
@[simp] theorem State.setMem_draws (s : State) (m : Memory) : (s.setMem m).draws = s.draws := rfl
@[simp] theorem State.setMem_events (s : State) (m : Memory) : (s.setMem m).events = s.events := rfl

/-! ### emit -/

@[simp] theorem State.emit_V (s : State) (e : Event) : (s.emit e).V = s.V := rfl
@[simp] theorem State.emit_I (s : State) (e : Event) : (s.emit e).I = s.I := rfl
@[simp] theorem State.emit_pc (s : State) (e : Event) : (s.emit e).pc = s.pc := rfl
@[simp] theorem State.emit_stack (s : State) (e : Event) : (s.emit e).stack = s.stack := rfl
@[simp] theorem State.emit_sp (s : State) (e : Event) : (s.emit e).sp = s.sp := rfl
@[simp] theorem State.emit_DT (s : State) (e : Event) : (s.emit e).DT = s.DT := rfl
@[simp] theorem State.emit_ST (s : State) (e : Event) : (s.emit e).ST = s.ST := rfl
@[simp] theorem State.emit_key (s : State) (e : Event) : (s.emit e).key = s.key := rfl
@[simp] theorem State.emit_fb (s : State) (e : Event) : (s.emit e).fb = s.fb := rfl
@[simp] theorem State.emit_redraw (s : State) (e : Event) : (s.emit e).redraw = s.redraw := rfl
@[simp] theorem State.emit_mode (s : State) (e : Event) : (s.emit e).mode = s.mode := rfl
@[simp] theorem State.emit_waitReg (s : State) (e : Event) : (s.emit e).waitReg = s.waitReg := rfl
@[simp] theorem State.emit_mem (s : State) (e : Event) : (s.emit e).mem = s.mem := rfl
@[simp] theorem State.emit_draws (s : State) (e : Event) : (s.emit e).draws = s.draws := rfl
@[simp] theorem State.emit_events (s : State) (e : Event) : (s.emit e).events = e :: s.events := rfl

/-! ### nextDraw -/

@[simp] theorem State.nextDraw_V (s : State) : s.nextDraw.V = s.V := rfl
@[simp] theorem State.nextDraw_I (s : State) : s.nextDraw.I = s.I := rfl
@[simp] theorem State.nextDraw_pc (s : State) : s.nextDraw.pc = s.pc := rfl
@[simp] theorem State.nextDraw_stack (s : State) : s.nextDraw.stack = s.stack := rfl
@[simp] theorem State.nextDraw_sp (s : State) : s.nextDraw.sp = s.sp := rfl
@[simp] theorem State.nextDraw_DT (s : State) : s.nextDraw.DT = s.DT := rfl
@[simp] theorem State.nextDraw_ST (s : State) : s.nextDraw.ST = s.ST := rfl
@[simp] theorem State.nextDraw_key (s : State) : s.nextDraw.key = s.key := rfl
@[simp] theorem State.nextDraw_fb (s : State) : s.nextDraw.fb = s.fb := rfl
@[simp] theorem State.nextDraw_redraw (s : State) : s.nextDraw.redraw = s.redraw := rfl
@[simp] theorem State.nextDraw_mode (s : State) : s.nextDraw.mode = s.mode := rfl
@[simp] theorem State.nextDraw_waitReg (s : State) : s.nextDraw.waitReg = s.waitReg := rfl
@[simp] theorem State.nextDraw_mem (s : State) : s.nextDraw.mem = s.mem := rfl
@[simp] theorem State.nextDraw_draws (s : State) : s.nextDraw.draws = s.draws + 1 := rfl
@[simp] theorem State.nextDraw_events (s : State) : s.nextDraw.events = s.events := rfl

/-! ### skipIf -/

@[simp] theorem State.skipIf_V (s : State) (c : Bool) : (s.skipIf c).V = s.V := by cases c <;> rfl
@[simp] theorem State.skipIf_I (s : State) (c : Bool) : (s.skipIf c).I = s.I := by cases c <;> rfl
@[simp] theorem State.skipIf_pc (s : State) (c : Bool) : (s.skipIf c).pc = if c then s.pc + 2 else s.pc := by
  cases c <;> rfl
@[simp] theorem State.skipIf_stack (s : State) (c : Bool) : (s.skipIf c).stack = s.stack := by cases c <;> rfl
@[simp] theorem State.skipIf_sp (s : State) (c : Bool) : (s.skipIf c).sp = s.sp := by cases c <;> rfl
@[simp] theorem State.skipIf_DT (s : State) (c : Bool) : (s.skipIf c).DT = s.DT := by cases c <;> rfl
@[simp] theorem State.skipIf_ST (s : State) (c : Bool) : (s.skipIf c).ST = s.ST := by cases c <;> rfl
@[simp] theorem State.skipIf_key (s : State) (c : Bool) : (s.skipIf c).key = s.key := by cases c <;> rfl
@[simp] theorem State.skipIf_fb (s : State) (c : Bool) : (s.skipIf c).fb = s.fb := by cases c <;> rfl
@[simp] theorem State.skipIf_redraw (s : State) (c : Bool) : (s.skipIf c).redraw = s.redraw := by cases c <;> rfl
@[simp] theorem State.skipIf_mode (s : State) (c : Bool) : (s.skipIf c).mode = s.mode := by cases c <;> rfl
@[simp] theorem State.skipIf_waitReg (s : State) (c : Bool) : (s.skipIf c).waitReg = s.waitReg := by cases c <;> rfl
@[simp] theorem State.skipIf_mem (s : State) (c : Bool) : (s.skipIf c).mem = s.mem := by cases c <;> rfl
@[simp] theorem State.skipIf_draws (s : State) (c : Bool) : (s.skipIf c).draws = s.draws := by cases c <;> rfl
@[simp] theorem State.skipIf_events (s : State) (c : Bool) : (s.skipIf c).events = s.events := by cases c <;> rfl

/-! ### Reads of a register -/

theorem State.readV_eq (s : State) (x : Reg) : s.readV x = s.V[x.val] := rfl

theorem State.readV_writeV (s : State) (x y : Reg) (v : Byte) :
    (s.writeV x v).readV y = if x = y then v else s.readV y := by
  simp [State.readV, Vector.getElem_set, Fin.ext_iff]

@[simp] theorem State.readV_writeV_same (s : State) (x : Reg) (v : Byte) : (s.writeV x v).readV x = v := by
  simp [State.readV_writeV]

theorem State.readV_writeV_other (s : State) {x y : Reg} (h : x ≠ y) (v : Byte) :
    (s.writeV x v).readV y = s.readV y := by
  simp [State.readV_writeV, h]

/-- The two writes of a flag instruction, register by register: the flag wins when the destination is VF
(42_alu.md R173). -/
theorem readV_writeResultThenFlag (s : State) (x y : Reg) (result flag : Byte) :
    (writeResultThenFlag x result flag s).readV y =
      if y = Reg.VF then flag else if y = x then result else s.readV y := by
  simp only [writeResultThenFlag, State.readV_writeV, eq_comm]

end Sys2Proof.Machine
end

