-- ==== Sys2Proof/Laws/Ops.lean ====
section
/-!
SUPPORT. One lemma for each shared operation that says everything it can do: the range check, the key operand, the
transfers between memory and registers, push and pop, and raising a step error.
-/

namespace Sys2Proof.Machine

/-! ### Raising and guarding -/

theorem raise_eq_fault (kind : Word → Word → Fault) (i : Instr) (s : State) :
    raise kind i s = .fault (kind s.fetchAddress (encode i)) := rfl

theorem raise_ne_next (kind : Word → Word → Fault) (i : Instr) (s t : State) : raise kind i s ≠ .next t := by
  simp [raise]

theorem accessInRange_iff (i : Word) (count : Nat) :
    accessInRange i count = true ↔ count = 0 ∨ i.toNat + count ≤ 0x1000 := by
  simp [accessInRange]

/-- Everything the range check can answer. -/
theorem guardAccess_cases (i : Instr) (count : Nat) (s done : State) :
    ((count = 0 ∨ s.I.toNat + count ≤ 0x1000) ∧ guardAccess i count s done = .next done) ∨
    ((count ≠ 0 ∧ 0x1000 < s.I.toNat + count) ∧
      guardAccess i count s done =
        .fault (.dataOutOfRange (max s.I.toNat 0x1000) s.fetchAddress (encode i))) := by
  by_cases h : accessInRange s.I count = true
  · exact .inl ⟨(accessInRange_iff _ _).1 h, by simp [guardAccess, h]⟩
  · refine .inr ⟨?_, by simp [guardAccess, h, raise, firstOutOfRange]⟩
    rw [accessInRange_iff] at h
    omega

theorem guardAccess_next {i : Instr} {count : Nat} {s done t : State} (h : guardAccess i count s done = .next t) :
    t = done ∧ (count = 0 ∨ s.I.toNat + count ≤ 0x1000) := by
  rcases guardAccess_cases i count s done with ⟨hr, e⟩ | ⟨-, e⟩
  · rw [e] at h
    cases h
    exact ⟨rfl, hr⟩
  · rw [e] at h
    cases h

theorem guardAccess_of_inRange (i : Instr) {count : Nat} {s : State} (done : State)
    (h : count = 0 ∨ s.I.toNat + count ≤ 0x1000) : guardAccess i count s done = .next done := by
  rcases guardAccess_cases i count s done with ⟨-, e⟩ | ⟨hr, -⟩
  · exact e
  · omega

theorem guardAccess_of_outOfRange (i : Instr) {count : Nat} {s : State} (done : State)
    (h0 : count ≠ 0) (h : 0x1000 < s.I.toNat + count) :
    guardAccess i count s done = .fault (.dataOutOfRange (max s.I.toNat 0x1000) s.fetchAddress (encode i)) := by
  rcases guardAccess_cases i count s done with ⟨hr, -⟩ | ⟨-, e⟩
  · omega
  · exact e

/-- Everything the key operand check can answer. -/
theorem keySkip_of_lt (i : Instr) {vx : Byte} (b : Bool) (s : State) (h : vx.toNat < 16) :
    keySkip i vx b s = .next (s.skipIf (s.key[vx.toNat] == b)) := by
  simp [keySkip, h]

theorem keySkip_of_ge (i : Instr) {vx : Byte} (b : Bool) (s : State) (h : 16 ≤ vx.toNat) :
    keySkip i vx b s = .fault (.keyOperandRange vx s.fetchAddress (encode i)) := by
  simp [keySkip, Nat.not_lt.2 h, raise]

theorem keySkip_next {i : Instr} {vx : Byte} {b : Bool} {s t : State} (h : keySkip i vx b s = .next t) :
    ∃ c, t = s.skipIf c := by
  by_cases hv : vx.toNat < 16
  · rw [keySkip_of_lt i b s hv] at h
    cases h
    exact ⟨_, rfl⟩
  · rw [keySkip_of_ge i b s (Nat.le_of_not_lt hv)] at h
    cases h

/-! ### The registers V0..VX -/

theorem mem_regsThrough (x k : Reg) : k ∈ regsThrough x ↔ k ≤ x := by
  revert x k
  decide

theorem length_regsThrough (x : Reg) : (regsThrough x).length = x.val + 1 := by
  revert x
  decide

theorem getElem_regsThrough (x : Reg) (k : Nat) (h : k < (regsThrough x).length) :
    ((regsThrough x)[k]).val = k := by
  have hx : ∀ x : Reg, (regsThrough x).map Fin.val = List.range (x.val + 1) := by decide
  have := congrArg (fun l => l[k]?) (hx x)
  rw [length_regsThrough] at h
  simp only [List.getElem?_map, List.getElem?_range h] at this
  rw [List.getElem?_eq_getElem (by rw [length_regsThrough]; exact h)] at this
  simpa using this

/-- FX65 register by register: loaded if at most X, else as before (43_index_memory.md R195). -/
theorem readV_loadEach (ks : List Reg) (s : State) (k : Reg) :
    (s.loadEach ks).readV k = if k ∈ ks then s.mem.read (s.I.toNat + k.val) else s.readV k := by
  induction ks generalizing s with
  | nil => simp [State.loadEach]
  | cons j ks ih =>
    simp only [State.loadEach, ih, State.readV_writeV, State.writeV_mem, State.writeV_I, effectiveAddress,
      List.mem_cons]
    grind

/-- FX65 changes no field but V. -/
theorem loadEach_frame (ks : List Reg) (s : State) : ∃ V, s.loadEach ks = { s with V := V } := by
  induction ks generalizing s with
  | nil => exact ⟨s.V, rfl⟩
  | cons k ks ih => exact ih _

theorem readV_loadRegs (s : State) (x k : Reg) :
    (s.loadRegs x).readV k = if k ≤ x then s.mem.read (s.I.toNat + k.val) else s.readV k := by
  simp only [State.loadRegs, readV_loadEach, mem_regsThrough]

theorem loadRegs_frame (s : State) (x : Reg) : ∃ V, s.loadRegs x = { s with V := V } := loadEach_frame _ _

/-- FX55 byte by byte: `V[k]` at `I + k` for `k` at most X, every other byte as before (43_index_memory.md R194). -/
theorem read_storeRegs (s : State) (x : Reg) (a : Nat) :
    (s.storeRegs x).mem.read a =
      if h : s.I.toNat ≤ a ∧ a ≤ s.I.toNat + x.val then s.readV ⟨a - s.I.toNat, by omega⟩ else s.mem.read a := by
  simp only [State.storeRegs, State.setMem_mem, effectiveAddress, Nat.add_zero]
  split
  · rename_i h
    obtain ⟨k, rfl⟩ : ∃ k, a = s.I.toNat + k := ⟨a - s.I.toNat, by omega⟩
    have hk : k < ((regsThrough x).map s.readV).length := by
      rw [List.length_map, length_regsThrough]
      omega
    rw [Memory.read_writeBytes_inside _ _ _ hk, List.getElem_map]
    congr 1
    ext
    rw [getElem_regsThrough]
    simp
  · rename_i h
    rw [Memory.read_writeBytes_outside]
    rw [List.length_map, length_regsThrough]
    omega

theorem length_storeRegs_bytes (s : State) (x : Reg) : ((regsThrough x).map s.readV).length = x.val + 1 := by
  rw [List.length_map, length_regsThrough]

/-! ### The stack -/

theorem popPc_push (s : State) (v : Word) (h : s.sp.val < 16) (a : Word) :
    ((s.push v h).setPc a).popPc.pc = v ∧ ((s.push v h).setPc a).popPc.sp = s.sp := by
  constructor
  · simp
  · ext
    simp

/-! ### No instruction is refused -/

theorem raise_ne_refused (kind : Word → Word → Fault) (i : Instr) (s : State) (r : Refusal) :
    raise kind i s ≠ .refused r := by simp [raise]

theorem guardAccess_ne_refused (i : Instr) (count : Nat) (s done : State) (r : Refusal) :
    guardAccess i count s done ≠ .refused r := by
  rcases guardAccess_cases i count s done with ⟨-, e⟩ | ⟨-, e⟩ <;> rw [e] <;> simp

theorem keySkip_ne_refused (i : Instr) (vx : Byte) (b : Bool) (s : State) (r : Refusal) :
    keySkip i vx b s ≠ .refused r := by
  unfold keySkip
  split <;> simp [raise]

end Sys2Proof.Machine
end

