-- ==== Sys2Proof/Laws/Display.lean ====
section
/-!
SUPPORT. What the sprite engine's loops do, said once: a row and a sprite XOR their set bits onto the visible pixels, each
at most once, and the collision is a set bit on a set pixel (44_display.md R212, R213).
-/

namespace Sys2Proof.Machine

/-! ### One pixel -/

theorem pixel_plot (cv : Canvas) (px py : Nat) (y : Fin 32) (x : Fin 64) :
    (plot cv px py).fb.pixel y x = (cv.fb.pixel y x ^^ decide (px = x.val ∧ py = y.val)) := by
  unfold plot Framebuffer.pixel
  split
  · rename_i h
    by_cases hy : py = y.val
    · subst hy
      have e : (1#64 <<< px) = BitVec.twoPow 64 px := rfl
      simp [e, eq_comm]
    · simp [hy]
  · rename_i h
    have : ¬ (px = x.val ∧ py = y.val) := by
      have := x.isLt
      have := y.isLt
      omega
    simp [this]

/-- A plot collides exactly when its pixel is visible and set. -/
theorem collision_plot (cv : Canvas) (px py : Nat) :
    (plot cv px py).collision = true ↔
      cv.collision = true ∨ ∃ (y : Fin 32) (x : Fin 64), cv.fb.pixel y x = true ∧ px = x.val ∧ py = y.val := by
  unfold plot Framebuffer.pixel
  split
  · rename_i h
    simp only [Bool.or_eq_true]
    refine or_congr_right ⟨fun hp => ⟨⟨py, by omega⟩, ⟨px, by omega⟩, hp, rfl, rfl⟩, ?_⟩
    rintro ⟨y, x, hp, rfl, rfl⟩
    exact hp
  · rename_i h
    refine ⟨.inl, ?_⟩
    rintro (hc | ⟨y, x, -, rfl, rfl⟩)
    · exact hc
    · exfalso
      omega

/-! ### One row -/

/-- Some listed column offset of the byte puts a set bit on column `x`. -/
def rowHits (b : Byte) (vx : Nat) (cs : List Nat) (x : Nat) : Prop :=
  ∃ c ∈ cs, b.getLsbD (7 - c) = true ∧ vx + c = x

theorem rowHits_cons (b : Byte) (vx c : Nat) (cs : List Nat) (x : Nat) :
    rowHits b vx (c :: cs) x ↔ (b.getLsbD (7 - c) = true ∧ vx + c = x) ∨ rowHits b vx cs x := by
  simp [rowHits]

theorem not_rowHits_of_not_mem {b : Byte} {vx c : Nat} {cs : List Nat} (h : c ∉ cs) : ¬ rowHits b vx cs (vx + c) := by
  rintro ⟨d, hd, -, e⟩
  exact h (by rwa [show c = d by omega])

open Classical in
/-- A row XORs its set bits onto row `py`. -/
theorem pixel_drawRow (b : Byte) (vx py : Nat) {cs : List Nat} (hcs : cs.Nodup) (cv : Canvas) (y : Fin 32)
    (x : Fin 64) :
    (drawRow b vx py cs cv).fb.pixel y x =
      (cv.fb.pixel y x ^^ decide (py = y.val ∧ rowHits b vx cs x.val)) := by
  induction cs generalizing cv with
  | nil => simp [drawRow, rowHits]
  | cons c cs ih =>
    obtain ⟨hc, hcs⟩ := List.nodup_cons.1 hcs
    rw [drawRow, ih hcs]
    by_cases hb : b.getLsbD (7 - c) = true
    · rw [if_pos hb, pixel_plot, Bool.xor_assoc]
      congr 1
      by_cases hx : vx + c = x.val
      · have hn : ¬ rowHits b vx cs x.val := hx ▸ not_rowHits_of_not_mem hc
        simp [rowHits_cons, hb, hx, hn]
      · simp [rowHits_cons, hx]
    · rw [if_neg hb]
      simp [rowHits_cons, hb]

/-- A row collides exactly where one of its set bits meets a pixel that was set before the row. -/
theorem collision_drawRow (b : Byte) (vx py : Nat) {cs : List Nat} (hcs : cs.Nodup) (cv : Canvas) :
    (drawRow b vx py cs cv).collision = true ↔
      cv.collision = true ∨ ∃ (y : Fin 32) (x : Fin 64),
        cv.fb.pixel y x = true ∧ py = y.val ∧ rowHits b vx cs x.val := by
  induction cs generalizing cv with
  | nil => simp [drawRow, rowHits]
  | cons c cs ih =>
    obtain ⟨hc, hcs⟩ := List.nodup_cons.1 hcs
    rw [drawRow, ih hcs]
    by_cases hb : b.getLsbD (7 - c) = true
    · rw [if_pos hb, collision_plot, or_assoc]
      refine or_congr_right ⟨?_, ?_⟩
      · rintro (⟨y, x, hp, hx, hy⟩ | ⟨y, x, hp, hy, hh⟩)
        · exact ⟨y, x, hp, hy, (rowHits_cons ..).2 (.inl ⟨hb, hx⟩)⟩
        · have hx : vx + c ≠ x.val := fun e => not_rowHits_of_not_mem hc (e ▸ hh)
          rw [pixel_plot] at hp
          simp only [hx, false_and, decide_false, Bool.xor_false] at hp
          exact ⟨y, x, hp, hy, (rowHits_cons ..).2 (.inr hh)⟩
      · rintro ⟨y, x, hp, hy, hh⟩
        rcases (rowHits_cons ..).1 hh with ⟨-, hx⟩ | hh
        · exact .inl ⟨y, x, hp, hx, hy⟩
        · have hx : vx + c ≠ x.val := fun e => not_rowHits_of_not_mem hc (e ▸ hh)
          refine .inr ⟨y, x, ?_, hy, hh⟩
          rw [pixel_plot]
          simp [hx, hp]
    · rw [if_neg hb]
      simp [rowHits_cons, hb]

/-! ### A sprite -/

/-- Some listed row of the sprite puts a set bit on row `y`, column `x`. -/
def spriteHits (m : Memory) (i : Word) (vx vy : Nat) (rs : List Nat) (y x : Nat) : Prop :=
  ∃ r ∈ rs, vy + r = y ∧ rowHits (m.read (i.toNat + r)) vx (List.range 8) x

theorem spriteHits_cons (m : Memory) (i : Word) (vx vy r : Nat) (rs : List Nat) (y x : Nat) :
    spriteHits m i vx vy (r :: rs) y x ↔
      (vy + r = y ∧ rowHits (m.read (i.toNat + r)) vx (List.range 8) x) ∨ spriteHits m i vx vy rs y x := by
  simp [spriteHits]

theorem not_spriteHits_of_not_mem {m : Memory} {i : Word} {vx vy r : Nat} {rs : List Nat} {x : Nat} (h : r ∉ rs) :
    ¬ spriteHits m i vx vy rs (vy + r) x := by
  rintro ⟨q, hq, e, -⟩
  exact h (by rwa [show r = q by omega])

open Classical in
theorem pixel_drawRows (m : Memory) (i : Word) (vx vy : Nat) {rs : List Nat} (hrs : rs.Nodup) (cv : Canvas)
    (y : Fin 32) (x : Fin 64) :
    (drawRows m i vx vy rs cv).fb.pixel y x =
      (cv.fb.pixel y x ^^ decide (spriteHits m i vx vy rs y.val x.val)) := by
  induction rs generalizing cv with
  | nil => simp [drawRows, spriteHits]
  | cons r rs ih =>
    obtain ⟨hr, hrs⟩ := List.nodup_cons.1 hrs
    rw [drawRows, ih hrs, pixel_drawRow _ _ _ List.nodup_range, Bool.xor_assoc]
    congr 1
    by_cases hy : vy + r = y.val
    · have hn : ¬ spriteHits m i vx vy rs y.val x.val := hy ▸ not_spriteHits_of_not_mem hr
      simp [spriteHits_cons, hy, hn, effectiveAddress]
    · simp [spriteHits_cons, hy]

theorem collision_drawRows (m : Memory) (i : Word) (vx vy : Nat) {rs : List Nat} (hrs : rs.Nodup) (cv : Canvas) :
    (drawRows m i vx vy rs cv).collision = true ↔
      cv.collision = true ∨ ∃ (y : Fin 32) (x : Fin 64),
        cv.fb.pixel y x = true ∧ spriteHits m i vx vy rs y.val x.val := by
  induction rs generalizing cv with
  | nil => simp [drawRows, spriteHits]
  | cons r rs ih =>
    obtain ⟨hr, hrs⟩ := List.nodup_cons.1 hrs
    rw [drawRows, ih hrs, collision_drawRow _ _ _ List.nodup_range, or_assoc]
    refine or_congr_right ⟨?_, ?_⟩
    · rintro (⟨y, x, hp, hy, hh⟩ | ⟨y, x, hp, hh⟩)
      · exact ⟨y, x, hp, (spriteHits_cons ..).2 (.inl ⟨hy, hh⟩)⟩
      · have hy : vy + r ≠ y.val := fun e => not_spriteHits_of_not_mem hr (e ▸ hh)
        rw [pixel_drawRow _ _ _ List.nodup_range] at hp
        simp only [hy, false_and, decide_false, Bool.xor_false] at hp
        exact ⟨y, x, hp, (spriteHits_cons ..).2 (.inr hh)⟩
    · rintro ⟨y, x, hp, hh⟩
      rcases (spriteHits_cons ..).1 hh with ⟨hy, hh⟩ | hh
      · exact .inl ⟨y, x, hp, hy, hh⟩
      · have hy : vy + r ≠ y.val := fun e => not_spriteHits_of_not_mem hr (e ▸ hh)
        refine .inr ⟨y, x, ?_, hh⟩
        rw [pixel_drawRow _ _ _ List.nodup_range]
        simp [hy, hp]

theorem spriteMask_iff (m : Memory) (i : Word) (vx vy n : Nat) (y : Fin 32) (x : Fin 64) :
    spriteMask m i vx vy n y x = true ↔ spriteHits m i vx vy (List.range n) y.val x.val := by
  simp only [spriteMask, spriteHits, rowHits, Bool.and_eq_true, decide_eq_true_eq, List.mem_range]
  constructor
  · rintro ⟨h, hb⟩
    exact ⟨y.val - vy, by omega, by omega, x.val - vx, by omega, hb, by omega⟩
  · rintro ⟨r, hr, hy, c, hc, hb, hx⟩
    refine ⟨by omega, ?_⟩
    rwa [show y.val - vy = r by omega, show x.val - vx = c by omega]

/-- The framebuffer after a sprite is `fb XOR S` (44_display.md R213). -/
theorem pixel_drawSprite (m : Memory) (i : Word) (vx vy n : Nat) (fb : Framebuffer) (y : Fin 32) (x : Fin 64) :
    (drawSprite m i vx vy n fb).fb.pixel y x = (fb.pixel y x ^^ spriteMask m i vx vy n y x) := by
  classical
  rw [drawSprite, pixel_drawRows _ _ _ _ List.nodup_range]
  congr 1
  rw [Bool.eq_iff_iff, decide_eq_true_eq, spriteMask_iff]

/-- The collision of a sprite is `fb AND S` not all zero (44_display.md R213). -/
theorem collision_drawSprite (m : Memory) (i : Word) (vx vy n : Nat) (fb : Framebuffer) :
    (drawSprite m i vx vy n fb).collision = true ↔
      ∃ (y : Fin 32) (x : Fin 64), fb.pixel y x = true ∧ spriteMask m i vx vy n y x = true := by
  rw [drawSprite, collision_drawRows _ _ _ _ List.nodup_range]
  simp [spriteMask_iff]

/-- Two framebuffers with the same pixels are the same. -/
theorem framebuffer_ext {f g : Framebuffer} (h : ∀ y x, f.pixel y x = g.pixel y x) : f = g := by
  ext i hi j hj
  have := h ⟨i, hi⟩ ⟨j, hj⟩
  simpa [Framebuffer.pixel, BitVec.getLsbD_eq_getElem, hj] using this

@[simp] theorem pixel_clear (y : Fin 32) (x : Fin 64) : Framebuffer.pixel Framebuffer.clear y x = false := by
  simp [Framebuffer.pixel, Framebuffer.clear]

end Sys2Proof.Machine
end

