-- ==== Sys2Proof/Laws/Encoding.lean ====
section
/-!
SUPPORT. The fields of a word as numbers: what each pack and each field is in arithmetic, and each field of each format
(30_encoding.md R91, R92).
-/

namespace Sys2Proof

/-! ### Packs and fields as numbers -/

theorem toNat_append (m n : Nat) (a : BitVec m) (b : BitVec n) : (a ++ b).toNat = a.toNat * 2 ^ n + b.toNat := by
  rw [BitVec.toNat_append, ← Nat.shiftLeft_add_eq_or_of_lt b.isLt, Nat.shiftLeft_eq]

theorem toNat_packAddr (g : BitVec 4) (nnn : BitVec 12) :
    (packAddr g nnn).toNat = g.toNat * 4096 + nnn.toNat := toNat_append 4 12 g nnn

theorem toNat_packByte (g : BitVec 4) (x : Reg) (nn : Byte) :
    (packByte g x nn).toNat = g.toNat * 4096 + x.val * 256 + nn.toNat := by
  have h : (packByte g x nn).toNat = (g ++ BitVec.ofFin (w := 4) x).toNat * 2 ^ 8 + nn.toNat :=
    toNat_append (4 + 4) 8 _ nn
  rw [h, toNat_append 4 4]
  show (g.toNat * 2 ^ 4 + x.val) * 2 ^ 8 + nn.toNat = _
  omega

theorem toNat_packDigits (g : BitVec 4) (x y n : Fin 16) :
    (packDigits g x y n).toNat = g.toNat * 4096 + x.val * 256 + y.val * 16 + n.val := by
  have h : (packDigits g x y n).toNat =
      (g ++ BitVec.ofFin (w := 4) x ++ BitVec.ofFin (w := 4) y).toNat * 2 ^ 4 + n.val :=
    toNat_append (4 + 4 + 4) 4 _ (BitVec.ofFin (w := 4) n)
  rw [h, toNat_append (4 + 4) 4, toNat_append 4 4]
  show ((g.toNat * 2 ^ 4 + x.val) * 2 ^ 4 + y.val) * 2 ^ 4 + n.val = _
  omega

theorem fieldG_eq (op : Word) : fieldG op = op.toNat / 4096 := by
  have := op.isLt
  simp only [fieldG, BitVec.extractLsb'_toNat, Nat.shiftRight_eq_div_pow]
  omega

theorem val_fieldX (op : Word) : (fieldX op).val = op.toNat / 256 % 16 := by
  simp [fieldX, BitVec.extractLsb'_toNat, Nat.shiftRight_eq_div_pow]

theorem val_fieldY (op : Word) : (fieldY op).val = op.toNat / 16 % 16 := by
  simp [fieldY, BitVec.extractLsb'_toNat, Nat.shiftRight_eq_div_pow]

theorem val_fieldN (op : Word) : (fieldN op).val = op.toNat % 16 := by
  simp [fieldN, BitVec.extractLsb'_toNat]

theorem toNat_fieldNN (op : Word) : (fieldNN op).toNat = op.toNat % 256 := by
  simp [fieldNN]

theorem toNat_fieldNNN (op : Word) : (fieldNNN op).toNat = op.toNat % 4096 := by
  simp [fieldNNN]

/-! ### Each field of each format -/

theorem fieldG_packAddr (g : BitVec 4) (nnn : BitVec 12) : fieldG (packAddr g nnn) = g.toNat := by
  rw [fieldG_eq, toNat_packAddr]
  omega

theorem fieldNNN_packAddr (g : BitVec 4) (nnn : BitVec 12) : fieldNNN (packAddr g nnn) = nnn := by
  apply BitVec.eq_of_toNat_eq
  rw [toNat_fieldNNN, toNat_packAddr]
  omega

theorem fieldG_packByte (g : BitVec 4) (x : Reg) (nn : Byte) : fieldG (packByte g x nn) = g.toNat := by
  rw [fieldG_eq, toNat_packByte]
  omega

theorem fieldX_packByte (g : BitVec 4) (x : Reg) (nn : Byte) : fieldX (packByte g x nn) = x := by
  apply Fin.ext
  rw [val_fieldX, toNat_packByte]
  omega

theorem fieldNN_packByte (g : BitVec 4) (x : Reg) (nn : Byte) : fieldNN (packByte g x nn) = nn := by
  apply BitVec.eq_of_toNat_eq
  rw [toNat_fieldNN, toNat_packByte]
  omega

theorem fieldG_packDigits (g : BitVec 4) (x y n : Fin 16) : fieldG (packDigits g x y n) = g.toNat := by
  rw [fieldG_eq, toNat_packDigits]
  omega

theorem fieldX_packDigits (g : BitVec 4) (x y n : Fin 16) : fieldX (packDigits g x y n) = x := by
  apply Fin.ext
  rw [val_fieldX, toNat_packDigits]
  omega

theorem fieldY_packDigits (g : BitVec 4) (x y n : Fin 16) : fieldY (packDigits g x y n) = y := by
  apply Fin.ext
  rw [val_fieldY, toNat_packDigits]
  omega

theorem fieldN_packDigits (g : BitVec 4) (x y n : Fin 16) : fieldN (packDigits g x y n) = n := by
  apply Fin.ext
  rw [val_fieldN, toNat_packDigits]
  omega

/-! ### Masks -/

theorem packDigits_and (g g' : BitVec 4) (x y n x' y' n' : Fin 16) :
    packDigits g x y n &&& packDigits g' x' y' n' =
      packDigits (g &&& g') (x &&& x') (y &&& y') (n &&& n') := by
  have h (a b : Fin 16) : BitVec.ofFin (w := 4) (a &&& b) = BitVec.ofFin (w := 4) a &&& BitVec.ofFin (w := 4) b := by
    revert a b
    decide
  simp only [packDigits, h]
  rw [← BitVec.and_append, ← BitVec.and_append, ← BitVec.and_append]

theorem packDigits_inj {g g' : BitVec 4} {x y n x' y' n' : Fin 16} :
    packDigits g x y n = packDigits g' x' y' n' ↔ g = g' ∧ x = x' ∧ y = y' ∧ n = n' := by
  refine ⟨fun h => ?_, by rintro ⟨rfl, rfl, rfl, rfl⟩; rfl⟩
  have e := congrArg BitVec.toNat h
  rw [toNat_packDigits, toNat_packDigits] at e
  refine ⟨BitVec.eq_of_toNat_eq ?_, Fin.ext ?_, Fin.ext ?_, Fin.ext ?_⟩ <;> omega

/-! ### A word put together again from its fields -/

theorem packAddr_fields (op : Word) (g : BitVec 4) (h : fieldG op = g.toNat) : packAddr g (fieldNNN op) = op := by
  apply BitVec.eq_of_toNat_eq
  rw [fieldG_eq] at h
  rw [toNat_packAddr, toNat_fieldNNN, ← h]
  omega

theorem packByte_fields (op : Word) (g : BitVec 4) (h : fieldG op = g.toNat) :
    packByte g (fieldX op) (fieldNN op) = op := by
  apply BitVec.eq_of_toNat_eq
  rw [fieldG_eq] at h
  rw [toNat_packByte, val_fieldX, toNat_fieldNN, ← h]
  omega

theorem packDigits_fields (op : Word) (g : BitVec 4) (h : fieldG op = g.toNat) :
    packDigits g (fieldX op) (fieldY op) (fieldN op) = op := by
  apply BitVec.eq_of_toNat_eq
  rw [fieldG_eq] at h
  rw [toNat_packDigits, val_fieldX, val_fieldY, val_fieldN, ← h]
  omega

end Sys2Proof
end

