-- ==== Sys2Proof/Laws/Exec.lean ====
section
/-!
SUPPORT. Inversion: what a step and the conditional meanings can answer, said once. A proof about every step starts from
`step_next_cases`; one about every instruction from `cases i` and these lemmas.
-/

namespace Sys2Proof.Machine

/-! ### The meanings with a condition -/

theorem execRet_next {s t : State} (h : execRet s = .next t) : s.sp.val ≠ 0 ∧ t = s.popPc := by
  unfold execRet at h
  split at h
  · exact absurd h (raise_ne_next _ _ _ _)
  · cases h
    exact ⟨‹_›, rfl⟩

theorem execCall_next {nnn : BitVec 12} {s t : State} (h : execCall nnn s = .next t) :
    ∃ hs : s.sp.val < 16, t = (s.push s.pc hs).setPc (zextAddr nnn) := by
  unfold execCall at h
  split at h
  · cases h
    exact ⟨‹_›, rfl⟩
  · exact absurd h (raise_ne_next _ _ _ _)

theorem execLdB_next {x : Reg} {s t : State} (h : execLdB x s = .next t) :
    s.I.toNat + 3 ≤ 0x1000 ∧ t = s.setMem (s.mem.writeBytes s.I.toNat (decimalDigits (s.readV x))) := by
  obtain ⟨e, hr⟩ := guardAccess_next h
  exact ⟨by omega, e⟩

theorem execLdStore_next {x : Reg} {s t : State} (h : execLdStore x s = .next t) :
    s.I.toNat + x.val ≤ 0xFFF ∧ t = s.storeRegs x := by
  obtain ⟨e, hr⟩ := guardAccess_next h
  exact ⟨by omega, e⟩

theorem execLdLoad_next {x : Reg} {s t : State} (h : execLdLoad x s = .next t) :
    s.I.toNat + x.val ≤ 0xFFF ∧ t = s.loadRegs x := by
  obtain ⟨e, hr⟩ := guardAccess_next h
  exact ⟨by omega, e⟩

theorem execDrw_next {x y : Reg} {n : Fin 16} {s t : State} (h : execDrw x y n s = .next t) :
    (n.val = 0 ∨ s.I.toNat + n.val ≤ 0x1000) ∧ t = drawEffect x y n s := by
  obtain ⟨e, hr⟩ := guardAccess_next h
  exact ⟨hr, e⟩

theorem execSkp_next {x : Reg} {s t : State} (h : execSkp x s = .next t) : ∃ c, t = s.skipIf c := keySkip_next h

theorem execSknp_next {x : Reg} {s t : State} (h : execSknp x s = .next t) : ∃ c, t = s.skipIf c := keySkip_next h

/-! ### DXYN's effect, field by field -/

theorem drawEffect_frame (x y : Reg) (n : Fin 16) (s : State) :
    drawEffect x y n s =
      { s with V := (drawEffect x y n s).V, fb := (drawEffect x y n s).fb, redraw := true } := rfl

theorem pixel_drawEffect (x y : Reg) (n : Fin 16) (s : State) (py : Fin 32) (px : Fin 64) :
    (drawEffect x y n s).fb.pixel py px =
      (s.fb.pixel py px ^^ spriteMask s.mem s.I (s.readV x).toNat (s.readV y).toNat n.val py px) :=
  pixel_drawSprite ..

theorem readV_drawEffect (x y : Reg) (n : Fin 16) (s : State) (k : Reg) :
    (drawEffect x y n s).readV k =
      if k = Reg.VF then
        flagByte (drawSprite s.mem s.I (s.readV x).toNat (s.readV y).toNat n.val s.fb).collision
      else s.readV k := by
  show ((s.setFb _).writeV Reg.VF _).readV k = _
  rw [State.readV_writeV]
  simp only [eq_comm]
  rfl

/-! ### The stored memories stay canonical -/

theorem wf_storeRegs {s : State} (hm : s.mem.wf = true) {x : Reg} (h : s.I.toNat + x.val ≤ 0xFFF) :
    (s.storeRegs x).mem.wf = true := by
  refine Memory.wf_writeBytes hm _ ?_
  rw [length_storeRegs_bytes]
  show s.I.toNat + 0 + (x.val + 1) ≤ 4096
  omega

theorem wf_storeDigits {m : Memory} (hm : m.wf = true) {a : Nat} (v : Byte) (h : a + 3 ≤ 0x1000) :
    (m.writeBytes a (decimalDigits v)).wf = true := by
  refine Memory.wf_writeBytes hm _ ?_
  simp only [decimalDigits, List.length_cons, List.length_nil]
  omega

theorem wf_loadImage {image : List Byte} {s t : State} (hm : s.mem.wf = true) (h : loadImage image s = some t) :
    t.mem.wf = true := by
  unfold loadImage at h
  split at h
  · cases h
    exact Memory.wf_writeBytes hm _ (by rename_i h; simp [Config.maxImage, Config.progOrigin] at h ⊢; omega)
  · cases h

/-! ### No refusal -/

/-- Every instruction has a meaning: `exec` never refuses. -/
theorem exec_ne_refused (i : Instr) (s : State) (r : Refusal) : exec i s ≠ .refused r := by
  cases i
  case ret =>
    show execRet s ≠ _
    unfold execRet
    split <;> simp [raise]
  case call nnn =>
    show execCall nnn s ≠ _
    unfold execCall
    split <;> simp [raise]
  case skp x => exact keySkip_ne_refused _ _ _ _ _
  case sknp x => exact keySkip_ne_refused _ _ _ _ _
  case ldB x => exact guardAccess_ne_refused _ _ _ _ _
  case ldStore x => exact guardAccess_ne_refused _ _ _ _ _
  case ldLoad x => exact guardAccess_ne_refused _ _ _ _ _
  case drw x y n => exact guardAccess_ne_refused _ _ _ _ _
  all_goals exact fun h => nomatch h

/-! ### One step -/

theorem fetchInRange_iff (s : State) : s.fetchInRange = true ↔ s.pc.toNat ≤ 0xFFE := by
  simp [State.fetchInRange]

/-- Every way a step can answer a next state. -/
theorem step_next_cases {s t : State} (h : step s = .next t) :
    (s.mode = .awaitingKey ∧ t = s) ∨
    (s.mode = .running ∧ s.pc.toNat ≤ 0xFFE ∧
      ((∃ i, decodeWord s.fetchWord = some i ∧ exec i s.advance = .next t) ∨
        (decodeWord s.fetchWord = none ∧ t = unknownOpcodeStep s))) := by
  unfold step at h
  split at h
  · rename_i hm
    cases h
    exact .inl ⟨hm, rfl⟩
  · rename_i hm
    split at h
    · rename_i hr
      rw [fetchInRange_iff] at hr
      split at h
      · rename_i i hd
        exact .inr ⟨hm, hr, .inl ⟨i, hd, h⟩⟩
      · rename_i hd
        cases h
        exact .inr ⟨hm, hr, .inr ⟨hd, rfl⟩⟩
    · cases h

/-- Every way a step can fault. -/
theorem step_fault_cases {s : State} {f : Fault} (h : step s = .fault f) :
    s.mode = .running ∧
      ((0xFFE < s.pc.toNat ∧ f = .fetchOutOfRange s.pc) ∨
        (s.pc.toNat ≤ 0xFFE ∧ ∃ i, decodeWord s.fetchWord = some i ∧ exec i s.advance = .fault f)) := by
  unfold step at h
  split at h
  · cases h
  · rename_i hm
    refine ⟨hm, ?_⟩
    split at h
    · rename_i hr
      rw [fetchInRange_iff] at hr
      split at h
      · rename_i i hd
        exact .inr ⟨hr, i, hd, h⟩
      · cases h
    · rename_i hr
      rw [fetchInRange_iff] at hr
      cases h
      exact .inl ⟨by omega, rfl⟩

/-- A run of one more step, on any machine, when the step answers a next state. -/
theorem coreRun_succ_of_next (M : Host.Core) {s t : M.State} (h : M.step s = .next t) (k : Nat) :
    M.run (k + 1) s = M.run k t := by
  rw [Host.Core.run, h]

/-- A run of one more step, on any machine, when the step faults. -/
theorem coreRun_succ_of_fault (M : Host.Core) {s : M.State} {f : M.Fault} (h : M.step s = .fault f) (k : Nat) :
    M.run (k + 1) s = .fault f := by
  rw [Host.Core.run, h]

theorem run_succ_of_next {s t : State} (h : step s = .next t) (k : Nat) :
    Sys2Proof.core.run (k + 1) s = Sys2Proof.core.run k t := coreRun_succ_of_next Sys2Proof.core h k

/-! ### `step()` as the host sees it, and runs of operations -/

theorem stepOperation_of_next {s t : State} (h : step s = .next t) : stepOperation s = (t, completionResult s) := by
  rw [stepOperation, h]

theorem stepOperation_of_fault {s : State} {f : Fault} (h : step s = .fault f) :
    stepOperation s = (afterError s f, .error f) := by
  rw [stepOperation, h]

theorem step_ne_refused (s : State) (r : Refusal) : step s ≠ .refused r := by
  unfold step
  split
  · exact fun h => nomatch h
  · split
    · split
      · exact exec_ne_refused _ _ r
      · exact fun h => nomatch h
    · exact fun h => nomatch h

/-- A step that completes lets a run go on. -/
@[simp] theorem after_completionResult (s t : State) : (OpResult.stepped (completionResult s)).after t = .next t := by
  unfold completionResult
  split
  · rfl
  · split <;> rfl

/-- A run goes on after an operation exactly with the state the operation gave, or stops with the error of its step. -/
theorem after_transition_cases (op : Op) (s : State) :
    ((transition op s).2.after (transition op s).1 = .next (transition op s).1 ∧
      ∀ f, (transition op s).2 ≠ .stepped (.error f)) ∨
    (op = .step ∧ ∃ f, (transition op s).2 = .stepped (.error f) ∧
      (transition op s).2.after (transition op s).1 = .fault f) := by
  cases op
  case step =>
    match h : step s with
    | .next t =>
      simp only [transition, stepOperation_of_next h, after_completionResult]
      refine .inl ⟨trivial, fun f => ?_⟩
      unfold completionResult
      split
      · exact fun e => nomatch e
      · split <;> exact fun e => nomatch e
    | .fault f => simp only [transition, stepOperation_of_fault h]; exact .inr ⟨trivial, f, rfl, rfl⟩
    | .refused r => exact absurd h (step_ne_refused s r)
  case load image =>
    simp only [transition]
    split <;> exact .inl ⟨rfl, fun _ e => nomatch e⟩
  case setKey k p =>
    simp only [transition]
    split <;> exact .inl ⟨rfl, fun _ e => nomatch e⟩
  all_goals exact .inl ⟨rfl, fun _ e => nomatch e⟩

@[simp] theorem runUntilError_nil (s : State) : runUntilError [] s = .next s := rfl

/-- A run whose first operation is no failed step. -/
theorem runUntilError_cons_of_next {op : Op} {s t : State} (ops : List Op)
    (h : (transition op s).2.after (transition op s).1 = .next t) :
    runUntilError (op :: ops) s = runUntilError ops t := by
  rw [runUntilError, h]

/-- A failed step ends the run. -/
theorem runUntilError_cons_of_fault {op : Op} {s : State} {f : Fault} (ops : List Op)
    (h : (transition op s).2.after (transition op s).1 = .fault f) :
    runUntilError (op :: ops) s = .fault f := by
  rw [runUntilError, h]

/-- A run of steps alone is the run of the host's interface. -/
theorem runUntilError_replicate_step (k : Nat) (s : State) :
    runUntilError (List.replicate k .step) s = Sys2Proof.core.run k s := by
  induction k generalizing s with
  | zero => rfl
  | succ k ih =>
    rw [List.replicate_succ]
    match h : step s with
    | .next t =>
      have e : (transition .step s).2.after (transition .step s).1 = .next t := by
        simp only [transition, stepOperation_of_next h, after_completionResult]
      rw [runUntilError_cons_of_next _ e, ih, run_succ_of_next h]
    | .fault f =>
      have e : (transition .step s).2.after (transition .step s).1 = .fault f := by
        simp only [transition, stepOperation_of_fault h]
        rfl
      exact (runUntilError_cons_of_fault _ e).trans (coreRun_succ_of_fault Sys2Proof.core h k).symm
    | .refused r => exact absurd h (step_ne_refused s r)

/-- A pc that may fetch advances without wrapping (40_step_cycle.md R123). -/
theorem toNat_advance_pc {s : State} (h : s.pc.toNat ≤ 0xFFE) : s.advance.pc.toNat = s.pc.toNat + 2 := by
  rw [State.advance_pc]
  bv_omega

/-- The fetch address seen from the advanced state is the old pc. -/
theorem fetchAddress_advance (s : State) : s.advance.fetchAddress = s.pc := by
  simp [State.fetchAddress]

end Sys2Proof.Machine
end

