-- ==== Sys2Proof/Tests/Slice0.lean ====
section
/-!
SUPPORT. Tests on fixed values, each from the spec's own examples and vectors (95_test_vectors.md, by their ids) or from a
pattern of the opcode map, and one witness for the hypotheses of each statement, clause by clause. Each test is one step.
-/

namespace Sys2Proof.Tests

open Sys2Proof.Machine Sys2Proof.Claims

/-! ### Builders -/

/-- The reset state with VX and VY set. -/
def withRegs (x : Reg) (a : Byte) (y : Reg) (b : Byte) : State := (State.reset.writeV x a).writeV y b

/-- `s` with bytes placed in memory from `a`. -/
def withBytes (s : State) (a : Nat) (bs : List Byte) : State := s.setMem (s.mem.writeBytes a bs)

/-- One step on `s` with the word `w` at 0x200, where pc is after reset. -/
def stepOn (w : Word) (s : State) : Result := step (withBytes s 0x200 (wordBytes w))

/-- Whether the answer is a next state with the property. -/
def nextHas (r : Result) (p : State → Bool) : Bool :=
  match r with
  | .next t => p t
  | .fault _ => false
  | .refused _ => false

/-- Whether the answer is this fault. -/
def faultIs (r : Result) (f : Fault) : Bool :=
  match r with
  | .next _ => false
  | .fault g => g == f
  | .refused _ => false

/-- The state with `d` return addresses held. -/
def withDepth (d : Fin 17) : State := { State.reset with sp := d }

/-! ### Well-formed words: one ill-formed word for each group's check (30_encoding.md R96..R100; vector C10) -/

theorem test_wellFormed_group0 : wellFormedWord 0x0000 = false ∧ wellFormedWord 0x00E1 = false := by decide
theorem test_wellFormed_group5 : wellFormedWord 0x5121 = false ∧ wellFormedWord 0x512F = false := by decide
theorem test_wellFormed_group8 : wellFormedWord 0x8128 = false ∧ wellFormedWord 0x812F = false := by decide
theorem test_wellFormed_group9 : wellFormedWord 0x9AB1 = false := by decide
theorem test_wellFormed_groupE : wellFormedWord 0xE19F = false ∧ wellFormedWord 0xE1A0 = false := by decide
theorem test_wellFormed_groupF : wellFormedWord 0xF154 = false ∧ wellFormedWord 0xF1FF = false := by decide
theorem test_wellFormed_known : wellFormedWord 0x00E0 = true ∧ wellFormedWord 0x812E = true := by decide

/-! ### Decoding: every constructor, from its pattern's bits (30_encoding.md R95; vectors C6..C11) -/

theorem test_decode_flow :
    decodeWord 0b0000000011101110#16 = some .ret ∧ decodeWord 0b0001101010111100#16 = some (.jp 0xABC) ∧
    decodeWord 0b0010111111101101#16 = some (.call 0xFED) ∧ decodeWord 0b0011110001000010#16 = some (.seImm 12 0x42) ∧
    decodeWord 0b0100110001000010#16 = some (.sneImm 12 0x42) ∧ decodeWord 0b0101000100100000#16 = some (.seReg 1 2) ∧
    decodeWord 0b1001000100100000#16 = some (.sneReg 1 2) ∧ decodeWord 0b1011001000110100#16 = some (.jpV0 0x234) := by
  decide

theorem test_decode_alu :
    decodeWord 0b0110101000101111#16 = some (.ldImm 10 0x2F) ∧ decodeWord 0b0111000100000101#16 = some (.addImm 1 5) ∧
    decodeWord 0b1000000100100000#16 = some (.ldReg 1 2) ∧ decodeWord 0b1000000100100001#16 = some (.orReg 1 2) ∧
    decodeWord 0b1000000100100010#16 = some (.andReg 1 2) ∧ decodeWord 0b1000000100100011#16 = some (.xorReg 1 2) ∧
    decodeWord 0b1000000100100100#16 = some (.addReg 1 2) ∧ decodeWord 0b1000000100100101#16 = some (.sub 1 2) ∧
    decodeWord 0b1000101010110110#16 = some (.shr 10 11) ∧ decodeWord 0b1000000100100111#16 = some (.subn 1 2) ∧
    decodeWord 0b1000000100101110#16 = some (.shl 1 2) ∧ decodeWord 0b1100001100001111#16 = some (.rnd 3 0x0F) := by
  decide

theorem test_decode_index :
    decodeWord 0b1010001011110000#16 = some (.ldI 0x2F0) ∧ decodeWord 0b1111000100011110#16 = some (.addI 1) ∧
    decodeWord 0b1111001100101001#16 = some (.ldF 3) ∧ decodeWord 0b1111000000110011#16 = some (.ldB 0) ∧
    decodeWord 0b1111001001010101#16 = some (.ldStore 2) ∧ decodeWord 0b1111001001100101#16 = some (.ldLoad 2) := by
  decide

theorem test_decode_display :
    decodeWord 0b0000000011100000#16 = some .cls ∧ decodeWord 0b1101011110100101#16 = some (.drw 7 10 5) := by decide

theorem test_decode_keypadTimer :
    decodeWord 0b1110000110011110#16 = some (.skp 1) ∧ decodeWord 0b1110000110100001#16 = some (.sknp 1) ∧
    decodeWord 0b1111001000000111#16 = some (.ldGetDT 2) ∧ decodeWord 0b1111001100001010#16 = some (.ldK 3) ∧
    decodeWord 0b1111001000010101#16 = some (.ldSetDT 2) ∧ decodeWord 0b1111001100011000#16 = some (.ldSetST 3) := by
  decide

theorem test_decode_bytes :
    decode [0x12, 0x34, 0xFF] = .instr (.jp 0x234) [0xFF] ∧ decode [0x00, 0x00] = .unknownOpcode 0 [] ∧
    decode [0x12] = .truncated := by decide

theorem test_decodeTableWord : decodeTableWord 16 0x8AB6 = some (.shr 10 11) ∧ decodeTableWord 16 0x5121 = none := by
  decide

/-! ### The step cycle (vectors C1..C5) -/

theorem test_step_unknown :
    nextHas (step State.reset) (fun t => t.pc == 0x202 && t.events == [.unknownOpcode 0x200 0]) = true := by decide

theorem test_step_lastAddress :
    nextHas (step (withBytes (State.reset.setPc 0xFFE) 0xFFE [0x60, 0x07]))
      (fun t => t.readV 0 == 7 && t.pc == 0x1000) = true := by decide

theorem test_step_oddAddress :
    nextHas (step (withBytes (State.reset.setPc 0x203) 0x203 [0x6A, 0x55]))
      (fun t => t.readV 10 == 0x55 && t.pc == 0x205) = true := by decide

theorem test_step_fetchOutOfRange : faultIs (step (State.reset.setPc 0xFFF)) (.fetchOutOfRange 0xFFF) = true := by decide

theorem test_withFetchWord :
    nextHas (step (State.reset.withFetchWord 16 0x6A2F)) (fun t => t.readV 10 == 0x2F && t.pc == 0x202) = true := by
  decide

/-! ### Control transfer (vectors F1..F22) -/

theorem test_jp : nextHas (stepOn 0x1ABC State.reset) (fun t => t.pc == 0xABC) = true := by decide
theorem test_call_last :
    nextHas (stepOn 0x2300 (withDepth 15)) (fun t => t.stack[15] == 0x202 && t.sp == 16 && t.pc == 0x300) = true := by
  decide
theorem test_call_overflow : faultIs (stepOn 0x2300 (withDepth 16)) (.stackOverflow 0x200 0x2300) = true := by decide
theorem test_ret :
    nextHas (stepOn 0x00EE { State.reset with sp := 1, stack := State.reset.stack.set 0 0x206 })
      (fun t => t.pc == 0x206 && t.sp == 0 && t.stack[0] == 0x206) = true := by decide
theorem test_ret_underflow : faultIs (stepOn 0x00EE State.reset) (.stackUnderflow 0x200 0x00EE) = true := by decide
theorem test_seImm : nextHas (stepOn 0x3342 (State.reset.writeV 3 0x42)) (fun t => t.pc == 0x204) = true := by decide
theorem test_sneImm : nextHas (stepOn 0x4342 (State.reset.writeV 3 0x42)) (fun t => t.pc == 0x202) = true := by decide
theorem test_seReg : nextHas (stepOn 0x5120 (withRegs 1 7 2 8)) (fun t => t.pc == 0x202) = true := by decide
theorem test_sneReg : nextHas (stepOn 0x9120 (withRegs 1 7 2 8)) (fun t => t.pc == 0x204) = true := by decide
theorem test_jpV0_noMask : nextHas (stepOn 0xBFFF (State.reset.writeV 0 0xFF)) (fun t => t.pc == 0x10FE) = true := by
  decide
theorem test_jpV0_alwaysV0 : nextHas (stepOn 0xB234 (State.reset.writeV 2 0x77)) (fun t => t.pc == 0x234) = true := by
  decide

/-! ### Load and ALU (vectors A1..A43) -/

theorem test_ldImm : nextHas (stepOn 0x6A2F State.reset) (fun t => t.readV 10 == 0x2F) = true := by decide
theorem test_addImm_wraps :
    nextHas (stepOn 0x7105 (State.reset.writeV 1 0xFE)) (fun t => t.readV 1 == 3 && t.readV 15 == 0) = true := by decide
theorem test_ldReg : nextHas (stepOn 0x8120 (withRegs 1 0 2 9)) (fun t => t.readV 1 == 9) = true := by decide
theorem test_orReg_keepsVF :
    nextHas (stepOn 0x8121 ((withRegs 1 0xF3 2 0x3F).writeV 15 1)) (fun t => t.readV 1 == 0xFF && t.readV 15 == 1) = true := by
  decide
theorem test_andReg_keepsVF :
    nextHas (stepOn 0x8122 ((withRegs 1 0xF3 2 0x3F).writeV 15 1)) (fun t => t.readV 1 == 0x33 && t.readV 15 == 1) = true := by
  decide
theorem test_xorReg_keepsVF :
    nextHas (stepOn 0x8123 ((withRegs 1 0xF3 2 0x3F).writeV 15 1)) (fun t => t.readV 1 == 0xCC && t.readV 15 == 1) = true := by
  decide
theorem test_addReg_256 :
    nextHas (stepOn 0x8124 (withRegs 1 0x80 2 0x80)) (fun t => t.readV 1 == 0 && t.readV 15 == 1) = true := by decide
theorem test_addReg_flagWins : nextHas (stepOn 0x8F14 (withRegs 15 5 1 1)) (fun t => t.readV 15 == 0) = true := by decide
theorem test_sub_borrow :
    nextHas (stepOn 0x8125 (withRegs 1 0x10 2 0x11)) (fun t => t.readV 1 == 0xFF && t.readV 15 == 0) = true := by decide
theorem test_sub_equal :
    nextHas (stepOn 0x8125 (withRegs 1 0x10 2 0x10)) (fun t => t.readV 1 == 0 && t.readV 15 == 1) = true := by decide
theorem test_shr_ignoresVY :
    nextHas (stepOn 0x8126 (withRegs 1 3 2 0x55)) (fun t => t.readV 1 == 1 && t.readV 15 == 1 && t.readV 2 == 0x55) = true := by
  decide
theorem test_subn :
    nextHas (stepOn 0x8127 (withRegs 1 0x30 2 0x10)) (fun t => t.readV 1 == 0xE0 && t.readV 15 == 0) = true := by decide
theorem test_shl_ignoresVY :
    nextHas (stepOn 0x812E (withRegs 1 0x81 2 0x55)) (fun t => t.readV 1 == 2 && t.readV 15 == 1 && t.readV 2 == 0x55) = true := by
  decide
theorem test_shl_flagWins : nextHas (stepOn 0x8F2E (State.reset.writeV 15 0x7F)) (fun t => t.readV 15 == 0) = true := by
  decide
theorem test_rnd_draw : (rndWith 0xA7 3 0x0F State.reset).readV 3 = 7 := by decide
theorem test_rnd_completes : nextHas (stepOn 0xC30F State.reset) (fun t => t.pc == 0x202 && t.draws == 1) = true := by
  decide

/-! ### Index and memory (vectors M1..M24) -/

theorem test_ldI : nextHas (stepOn 0xAFFF State.reset) (fun t => t.I == 0x0FFF) = true := by decide
theorem test_addI_carriesIntoHighByte :
    nextHas (stepOn 0xF11E ((State.reset.writeV 1 2).setI 0x02FF)) (fun t => t.I == 0x0301) = true := by decide
theorem test_addI_wraps :
    nextHas (stepOn 0xF11E ((State.reset.writeV 1 2).setI 0xFFFF)) (fun t => t.I == 0x0001) = true := by decide
theorem test_ldF_lowNibble : nextHas (stepOn 0xF329 (State.reset.writeV 3 0x1A)) (fun t => t.I == 0x0032) = true := by
  decide
theorem test_ldB_atTheEnd :
    nextHas (stepOn 0xF033 ((State.reset.writeV 0 254).setI 0x0FFD))
      (fun t => t.mem.read 0xFFD == 2 && t.mem.read 0xFFE == 5 && t.mem.read 0xFFF == 4) = true := by decide
theorem test_ldB_outOfRange :
    faultIs (stepOn 0xF033 ((State.reset.writeV 0 255).setI 0x0FFE)) (.dataOutOfRange 0x1000 0x200 0xF033) = true := by
  decide
theorem test_ldStore_inclusive :
    nextHas (stepOn 0xF155 (((withRegs 0 0x11 1 0x22).writeV 2 0x33).setI 0x400))
      (fun t => t.mem.read 0x400 == 0x11 && t.mem.read 0x401 == 0x22 && t.mem.read 0x402 == 0 && t.I == 0x400) = true := by
  decide
theorem test_ldStore_outOfRange :
    faultIs (stepOn 0xF055 (State.reset.setI 0x2345)) (.dataOutOfRange 0x2345 0x200 0xF055) = true := by decide
theorem test_ldLoad_inclusive :
    nextHas (stepOn 0xF265 (withBytes ((State.reset.writeV 3 0x77).setI 0x300) 0x300 [2, 5, 4, 9]))
      (fun t => t.readV 0 == 2 && t.readV 1 == 5 && t.readV 2 == 4 && t.readV 3 == 0x77) = true := by decide
theorem test_ldLoad_font :
    nextHas (stepOn 0xF065 State.reset) (fun t => t.readV 0 == 0xF0 && t.readV 1 == 0) = true := by decide

/-! ### Display (vectors G1..G17) -/

/-- The start of vector G3, with the column and row given. -/
def spriteAt (vx vy : Byte) : State := withBytes ((withRegs 0 vx 1 vy).setI 0x300) 0x300 [0x81]

theorem test_cls :
    nextHas (stepOn 0x00E0 (State.reset.setFb (Vector.replicate 32 1)))
      (fun t => t.fb == Vector.replicate 32 0 && t.redraw == false) = true := by decide
theorem test_drw_bitOrder :
    nextHas (stepOn 0xD011 (spriteAt 8 4))
      (fun t => t.fb.pixel 4 8 && t.fb.pixel 4 15 && !t.fb.pixel 4 9 && t.readV 15 == 0 && t.redraw) = true := by decide
theorem test_drw_clipsAndDoesNotWrap :
    nextHas (stepOn 0xD011 (spriteAt 60 0)) (fun t => t.fb.pixel 0 60 && !t.fb.pixel 0 3) = true := by decide

/-! ### Keypad and timers (vectors K1..K13) -/

theorem test_skp_lastKey :
    nextHas (stepOn 0xE19E ((State.reset.writeV 1 15).writeKey 15 true)) (fun t => t.pc == 0x204) = true := by decide
theorem test_skp_outOfRange :
    faultIs (stepOn 0xE19E (State.reset.writeV 1 16)) (.keyOperandRange 16 0x200 0xE19E) = true := by decide
theorem test_sknp : nextHas (stepOn 0xE1A1 (State.reset.writeV 1 5)) (fun t => t.pc == 0x204) = true := by decide
theorem test_sknp_outOfRange :
    faultIs (stepOn 0xE1A1 (State.reset.writeV 1 0xFF)) (.keyOperandRange 255 0x200 0xE1A1) = true := by decide
theorem test_ldGetDT : nextHas (stepOn 0xF207 (State.reset.setDT 0x2A)) (fun t => t.readV 2 == 0x2A) = true := by decide
theorem test_ldK :
    nextHas (stepOn 0xF30A (State.reset.writeV 3 0x77))
      (fun t => t.mode == .awaitingKey && t.waitReg == 3 && t.pc == 0x202 && t.readV 3 == 0x77) = true := by decide
theorem test_ldSetDT : nextHas (stepOn 0xF215 ((State.reset.writeV 2 60).setDT 3)) (fun t => t.DT == 60) = true := by decide
theorem test_ldSetST_noEvent :
    nextHas (stepOn 0xF318 (State.reset.setST 1)) (fun t => t.ST == 0 && t.events == []) = true := by decide

/-! ### Host operations (vectors H2..H12, K14, F6) -/

theorem test_tick_tone : (tickTimers ((State.reset.setDT 1).setST 1)).events = [.toneStart] := by decide
theorem test_tick_noTone : (tickTimers ((State.reset.setDT 255).setST 2)).ST = 1 := by decide
theorem test_setKey_outOfRange : setKey 16 true State.reset = none ∧ setKey (-1) true State.reset = none := by decide
theorem test_setKey_endsWait :
    (setKey 2 true (State.reset.startWait 15)).map (fun t => (t.readV 15, t.mode)) = some (2, .running) := by decide
theorem test_load : (loadImage [0x12, 0x34] State.reset).map (fun t => t.mem.read 0x201) = some 0x34 := by decide
theorem test_stepOperation_afterError :
    (stepOperation (withBytes (withDepth 16) 0x200 [0x23, 0x00])).1.pc = 0x202 ∧
    (stepOperation (withBytes (withDepth 16) 0x200 [0x23, 0x00])).2 = .error (.stackOverflow 0x200 0x2300) := by decide

/-! ### Witnesses: for each statement with hypotheses, a state and operands that meet them, clause by clause -/

theorem witness_EncodeOfDecodeIsTheWord : decodeWord 0x8AB6 = some (.shr 10 11) := by decide

theorem witness_DecoderSelectsTheOpcodeMapRow :
    (⟨"JP", 0xF000#16, 0x1000#16⟩ : OpcodeRow) ∈ opcodeMap ∧
    OpcodeRow.selects ⟨"JP", 0xF000#16, 0x1000#16⟩ 0x1ABC = true := by decide

/-- pc at its last legal fetch address. -/
def atEnd : State := withBytes (State.reset.setPc 0xFFE) 0xFFE [0x60, 0x07]

theorem witness_StepRunsTheDecodedInstruction :
    atEnd.mode = .running ∧ atEnd.pc.toNat ≤ 0xFFE ∧
    decodeWord (atEnd.mem.read atEnd.pc.toNat ++ atEnd.mem.read (atEnd.pc.toNat + 1)) = some (.ldImm 0 7) := by decide

theorem witness_UnknownOpcodeIsANoOpWithADiagnostic :
    (State.reset.setPc 0xFFE).mode = .running ∧ (State.reset.setPc 0xFFE).pc.toNat ≤ 0xFFE ∧
    (0 : Word) = (State.reset.setPc 0xFFE).mem.read 0xFFE ++ (State.reset.setPc 0xFFE).mem.read 0xFFF ∧
    decodeWord 0 = none := by decide

theorem witness_StepsWhileAwaitingKeyChangeNothing : (State.reset.startWait 3).mode = .awaitingKey := by decide

theorem witness_FetchAboveMemoryEndIsAnError :
    (State.reset.setPc 0xFFF).mode = .running ∧ 0xFFE < (State.reset.setPc 0xFFF).pc.toNat := by decide

theorem witness_FailedStepChangesOnlyPc_fetch : step (State.reset.setPc 0xFFF) = .fault (.fetchOutOfRange 0xFFF) := rfl

theorem witness_FailedStepChangesOnlyPc_instruction :
    step (withBytes State.reset 0x200 [0x00, 0xEE]) = .fault (.stackUnderflow 0x200 0x00EE) := rfl

theorem witness_CallPushesTheAdvancedPc : (withDepth 15).sp.val < 16 := by decide

theorem witness_ReturnPopsPc :
    (withDepth 1).sp.val = (0 : Fin 16).val + 1 ∧ (withDepth 16).sp.val = (15 : Fin 16).val + 1 := by decide

theorem witness_CallThenReturnRestoresPc : (withDepth 15).sp.val < 16 := by decide

theorem witness_SeventeenthNestedCallOverflows :
    State.reset.sp = 0 ∧ (List.replicate 16 (0x300 : BitVec 12)).length ≤ 16 ∧
    (List.replicate 17 (0x300 : BitVec 12)).length = 17 := by decide

theorem witness_AddWritesSumAndCarry : (14 : Reg) ≠ Reg.VF := by decide
theorem witness_SubtractionsWriteDifferenceAndNoBorrow : (14 : Reg) ≠ Reg.VF := by decide
theorem witness_ShiftsWriteResultAndBitShiftedOut : (14 : Reg) ≠ Reg.VF := by decide

theorem witness_AluInstructionsReadAndWriteOnlyTheirOperands_flag :
    aluOperands (.sub 14 15) = some (14, 15) ∧ flagAlu (.sub 14 15) = some 14 ∧
    nextHas (exec (.sub 14 15) State.reset) (fun _ => true) = true := by decide

theorem witness_AluInstructionsReadAndWriteOnlyTheirOperands_noFlag :
    aluOperands (.rnd 3 0xFF) = some (3, 3) ∧ flagAlu (.rnd 3 0xFF) = none ∧
    nextHas (exec (.rnd 3 0xFF) State.reset) (fun _ => true) = true := by decide

theorem witness_DecimalDigitsAreStored : (State.reset.setI 0xFFD).I.toNat + 2 ≤ 0xFFF := by decide

theorem witness_RegistersAreStoredInclusive :
    (State.reset.setI 0xFF0).I.toNat + (15 : Reg).val ≤ 0xFFF ∧ (15 : Reg) ≤ 15 := by decide

theorem witness_RegistersAreLoadedInclusive :
    (State.reset.setI 0xFFF).I.toNat + (0 : Reg).val ≤ 0xFFF ∧ (0 : Reg) ≤ 0 ∧ (0 : Reg) < 15 := by decide

theorem witness_StoreThenLoadRestoresRegisters :
    (State.reset.setI 0xFFE).I.toNat + (1 : Reg).val ≤ 0xFFF ∧ (1 : Reg) ≤ 1 ∧ (1 : Reg) < 2 := by decide

/-- V0, V1 = 0x12, 0x0C: the word the program P6 stores. -/
def jumpInRegs : State := (withRegs 0 0x12 1 0x0C).setI 0x206

theorem witness_StoredBytesAreFetched :
    jumpInRegs.I.toNat + (1 : Reg).val ≤ 0xFFF ∧ (1 : Reg).val = (0 : Reg).val + 1 ∧ (1 : Reg) ≤ 1 ∧
    decodeWord (jumpInRegs.V[(0 : Reg)] ++ jumpInRegs.V[(1 : Reg)]) = some (.jp 0x20C) ∧ jumpInRegs.mode = .running := by
  decide

theorem witness_DrawXorsTheClippedSprite_noRows : (0 : Fin 16) = 0 ∨ (0x1000 : Word).toNat + (0 : Fin 16).val - 1 ≤ 0xFFF := by
  decide

theorem witness_DrawXorsTheClippedSprite_lastByte :
    (State.reset.setI 0xFFF).I.toNat + (1 : Fin 16).val - 1 ≤ 0xFFF := by decide

theorem witness_DrawXorsTheClippedSprite_collision :
    ((spriteAt 8 4).setFb (Vector.replicate 32 0x100)).fb.pixel 4 8 = true ∧
    spriteMask (spriteAt 8 4).mem (spriteAt 8 4).I 8 4 1 4 8 = true := by decide

theorem witness_DrawXorsTheClippedSprite_noCollision : ∀ (py : Fin 32) (px : Fin 64),
    (spriteAt 8 4).fb.pixel py px = true → spriteMask (spriteAt 8 4).mem (spriteAt 8 4).I 8 4 1 py px = false := by
  have h : ∀ py : Fin 32, (spriteAt 8 4).fb[py.val] = 0#64 := by decide
  intro py px hp
  rw [Framebuffer.pixel, h] at hp
  simp at hp

theorem witness_DrawOutsideTheScreenWritesNoPixel :
    (State.reset.setI 0xFFF).I.toNat + (1 : Fin 16).val - 1 ≤ 0xFFF ∧ 64 ≤ ((spriteAt 64 4).readV 0).toNat ∧
    32 ≤ ((spriteAt 8 32).readV 1).toNat := by decide

theorem witness_DrawingTwiceRestoresTheFramebuffer :
    (0 : Reg) ≠ Reg.VF ∧ (14 : Reg) ≠ Reg.VF ∧ (spriteAt 8 4).I.toNat + (1 : Fin 16).val - 1 ≤ 0xFFF := by decide

theorem witness_ClearThenDrawShowsOnlyTheSprite : (spriteAt 8 4).I.toNat + (1 : Fin 16).val - 1 ≤ 0xFFF := by decide

theorem witness_KeySkipsTestOneSlot : ((State.reset.writeV 1 15).V[(1 : Reg)]).toNat = (15 : Fin 16).val := by decide

theorem witness_KeyPressEndsTheWait : State.reset.mode = .running ∧ State.reset.key[(15 : Fin 16)] = false := by decide

theorem witness_SetKeyFollowsTheWaitMachine :
    ((-1 : Int) < 0 ∧ (15 : Int) < 16) ∧
    ((State.reset.startWait 3).writeKey 15 true).key[(15 : Fin 16)] = true ∧
    ((State.reset.startWait 3).mode = .awaitingKey ∧ (State.reset.startWait 3).key[(0 : Fin 16)] = false) := by decide

theorem witness_LoadCopiesTheImage :
    3584 < (List.replicate 3585 (0 : Byte)).length ∧ (List.replicate 3584 (1 : Byte)).length ≤ 3584 ∧
    3583 < (List.replicate 3584 (1 : Byte)).length := by
  rw [List.length_replicate, List.length_replicate]
  omega

theorem witness_ResetPutsEveryFieldToItsValue : (79 : Nat) < 80 ∧ 80 ≤ (80 : Nat) ∧ (4095 : Nat) < 4096 := by decide

theorem witness_TakeRedrawFlagQueriesAndClears :
    ({ State.reset with redraw := true } : State).redraw = true ∧
    (transition .takeRedrawFlag { State.reset with redraw := true }).1.redraw = false := by decide

/-- For each clause an instruction that does change that kind of state. -/
theorem witness_EachKindOfStateHasItsWriters :
    nextHas (exec (.ldImm 3 7) State.reset) (fun t => t.V != State.reset.V) = true ∧
    nextHas (exec (.ldB 0) (State.reset.setI 0x300 |>.writeV 0 7)) (fun t => t.mem != State.reset.mem) = true ∧
    nextHas (exec (.ldI 5) State.reset) (fun t => t.I != State.reset.I) = true ∧
    nextHas (exec (.call 5) State.reset) (fun t => t.sp != State.reset.sp && t.pc != State.reset.pc) = true ∧
    nextHas (exec (.ldSetDT 0) (State.reset.writeV 0 7)) (fun t => t.DT != State.reset.DT) = true ∧
    nextHas (exec (.ldSetST 0) (State.reset.writeV 0 7)) (fun t => t.ST != State.reset.ST) = true ∧
    nextHas (exec (.drw 0 1 1) (spriteAt 8 4)) (fun t => t.fb != State.reset.fb && t.redraw != State.reset.redraw) = true ∧
    nextHas (exec (.ldK 3) State.reset) (fun t => t.mode != State.reset.mode && t.waitReg != State.reset.waitReg) = true ∧
    nextHas (exec (.rnd 3 0) State.reset) (fun t => t.draws != State.reset.draws) = true := by decide

theorem witness_RegistersChangeOnlyWhereTabulated :
    nextHas (exec (.ldLoad 2) State.reset) (fun _ => true) = true ∧ ¬ mayWriteRegister (.ldLoad 2) 3 :=
  ⟨by decide, by show ¬ ((3 : Reg) ≤ 2); decide⟩

/-- A jump to itself at 0x200 (vector F2). -/
def haltAtOrigin : State := withBytes State.reset 0x200 [0x12, 0x00]

theorem haltAtOrigin_atSelfJump : haltAtOrigin.atSelfJump 0x200 := by
  refine ⟨?_, ?_, ?_, ?_⟩ <;> decide

theorem witness_SelfJumpIsAFixedPoint :
    haltAtOrigin.atSelfJump 0x200 ∧ ∀ op ∈ [Op.step, .tickTimers], op = .step ∨ op = .tickTimers :=
  ⟨haltAtOrigin_atSelfJump, by decide⟩

/-- A run that has ended at once, and one that has ended after a step (vector F2). -/
theorem witness_RunHasEndedOnlyWithoutAnError :
    RunEnded [] haltAtOrigin 0x200 ∧ RunEnded [.step] haltAtOrigin 0x200 :=
  ⟨⟨haltAtOrigin, rfl, haltAtOrigin_atSelfJump⟩, ⟨haltAtOrigin, rfl, haltAtOrigin_atSelfJump⟩⟩

/-- The image 00EE 1202: the first step is StackUnderflow. -/
def underflowThenSelfJump : State := withBytes State.reset 0x200 [0x00, 0xEE, 0x12, 0x02]

/-- A host that continues finds it at a self-jump, but it was reached through an `Error`, so the run has not ended
(70_reset_and_hazards.md R320). -/
theorem test_run_errorIsNoEnd :
    (runOps [.step] underflowThenSelfJump).atSelfJump 0x202 ∧ ¬ RunEnded [.step] underflowThenSelfJump 0x202 := by
  refine ⟨by refine ⟨?_, ?_, ?_, ?_⟩ <;> decide, fun ⟨t, h, _⟩ => ?_⟩
  have e : runUntilError [.step] underflowThenSelfJump = .fault (.stackUnderflow 0x200 0x00EE) := rfl
  exact nomatch e.symm.trans h

/-- A call at the last fetch address, with 15 return addresses held. -/
def callAtEnd : State := withBytes ((withDepth 15).setPc 0xFFE) 0xFFE [0x2F, 0xFF]

theorem witness_EveryStepKeepsTheInvariant :
    callAtEnd.Inv ∧ nextHas (step callAtEnd) (fun t => t.stack[15] == 0x1000) = true :=
  ⟨⟨by decide, by decide, by decide⟩, by decide⟩

theorem witness_EveryInterleavingKeepsTheInvariant : callAtEnd.Inv := witness_EveryStepKeepsTheInvariant.1

end Sys2Proof.Tests
end

section
/-!
PROOFS of the statements about the machine's state (10_state.md). `Effect` says once, class by class, what an instruction
that answers a next state does to the state it was given; the frame, the register table and the invariant are each read
off its thirteen classes.
-/

namespace Sys2Proof.Machine

open Sys2Proof.Claims

/-! ### What an instruction can do -/

/-- The skips of 41_flow.md R143..R146 and of 45_keypad_timer_instr.md R230, R231. -/
def isSkip (i : Instr) : Prop :=
  (∃ x nn, i = .seImm x nn ∨ i = .sneImm x nn) ∨ (∃ x y, i = .seReg x y ∨ i = .sneReg x y) ∨
    ∃ x, i = .skp x ∨ i = .sknp x

/-- `Effect i s t`: `t` is what the class of `i` can make of `s`. A constructor bounds what it leaves open (which registers
were written, where a jump goes, that memory stays canonical) and gives every other field by the update it names. -/
inductive Effect : Instr → State → State → Prop
  | registers {i s} (V : Vector Byte 16) (writes : ∃ k, mayWriteRegister i k)
      (kept : ∀ k : Reg, ¬ mayWriteRegister i k → V[k] = s.V[k]) : Effect i s { s with V := V }
  | random {s} (x nn r) : Effect (.rnd x nn) s (rndWith r x nn s)
  | draw {s} (x y n) : Effect (.drw x y n) s (drawEffect x y n s)
  | clear {s} : Effect .cls s (s.setFb Framebuffer.clear)
  | jump {i s} (a : Word) (jumps : ∃ nnn, i = .jp nnn ∨ i = .jpV0 nnn) (bound : a.toNat ≤ 0x10FE) :
      Effect i s (s.setPc a)
  | skip {i s} (skips : isSkip i) (c) : Effect i s (s.skipIf c)
  | call {s} (nnn) (h : s.sp.val < 16) : Effect (.call nnn) s ((s.push s.pc h).setPc (zextAddr nnn))
  | ret {s} : Effect .ret s s.popPc
  | index {i s} (v : Word) (indexes : (∃ nnn, i = .ldI nnn) ∨ ∃ x, i = .addI x ∨ i = .ldF x) : Effect i s (s.setI v)
  | store {i s} (m : Memory) (stores : ∃ x, i = .ldB x ∨ i = .ldStore x) (canonical : s.mem.wf = true → m.wf = true) :
      Effect i s (s.setMem m)
  | wait {s} (x) : Effect (.ldK x) s (s.startWait x)
  | delay {s} (x v) : Effect (.ldSetDT x) s (s.setDT v)
  | sound {s} (x v) : Effect (.ldSetST x) s (s.setST v)

theorem State.writeV_V_other (s : State) {x k : Reg} (h : k ≠ x) (v : Byte) : (s.writeV x v).V[k] = s.V[k] :=
  s.readV_writeV_other h.symm v

theorem Effect.of_writeV {i : Instr} {x : Reg} (hx : mayWriteRegister i x) (s : State) (v : Byte) :
    Effect i s (s.writeV x v) :=
  .registers _ ⟨x, hx⟩ fun _ hk => s.writeV_V_other (by rintro rfl; exact hk hx) v

theorem Effect.of_writeResultThenFlag {i : Instr} {x : Reg} (hx : mayWriteRegister i x)
    (hf : mayWriteRegister i Reg.VF) (s : State) (result flag : Byte) :
    Effect i s (writeResultThenFlag x result flag s) := by
  refine .registers _ ⟨x, hx⟩ fun k hk => ?_
  have hkx : k ≠ x := by rintro rfl; exact hk hx
  have hkf : k ≠ Reg.VF := by rintro rfl; exact hk hf
  exact ((s.writeV x result).writeV_V_other hkf flag).trans (s.writeV_V_other hkx result)

theorem Effect.of_loadRegs (x : Reg) (s : State) : Effect (.ldLoad x) s (s.loadRegs x) := by
  obtain ⟨V, hV⟩ := loadRegs_frame s x
  rw [hV]
  refine .registers V ⟨x, le_refl x⟩ fun k hk => ?_
  have hkx : ¬ k ≤ x := hk
  have hread := readV_loadRegs s x k
  rwa [hV, if_neg hkx] at hread

theorem toNat_zextAddr (nnn : BitVec 12) : (zextAddr nnn).toNat = nnn.toNat := by
  simp only [zextAddr, BitVec.toNat_setWidth]
  omega

/-- "the largest value any rule can produce is 0x10FE" (10_state.md R26): 0xFFF + 0xFF, by BNNN. -/
theorem toNat_zextAddr_add_zextByte_le (nnn : BitVec 12) (v : Byte) : (zextAddr nnn + zextByte v).toNat ≤ 0x10FE := by
  have hn := nnn.isLt
  have hv := v.isLt
  simp only [zextAddr, zextByte, BitVec.toNat_add, BitVec.toNat_setWidth]
  omega

/-- Every instruction that answers a next state does what its class allows. -/
theorem exec_effect {i : Instr} {s t : State} (h : exec i s = .next t) : Effect i s t := by
  cases i
  case cls => cases h; exact .clear
  case ret => obtain ⟨-, rfl⟩ := execRet_next h; exact .ret
  case call nnn => obtain ⟨hs, rfl⟩ := execCall_next h; exact .call nnn hs
  case jp nnn =>
    cases h
    exact .jump _ ⟨nnn, .inl rfl⟩ (by rw [toNat_zextAddr]; omega)
  case jpV0 nnn => cases h; exact .jump _ ⟨nnn, .inr rfl⟩ (toNat_zextAddr_add_zextByte_le nnn _)
  case seImm x nn => cases h; exact .skip (.inl ⟨x, nn, .inl rfl⟩) _
  case sneImm x nn => cases h; exact .skip (.inl ⟨x, nn, .inr rfl⟩) _
  case seReg x y => cases h; exact .skip (.inr (.inl ⟨x, y, .inl rfl⟩)) _
  case sneReg x y => cases h; exact .skip (.inr (.inl ⟨x, y, .inr rfl⟩)) _
  case skp x => obtain ⟨c, rfl⟩ := execSkp_next h; exact .skip (.inr (.inr ⟨x, .inl rfl⟩)) c
  case sknp x => obtain ⟨c, rfl⟩ := execSknp_next h; exact .skip (.inr (.inr ⟨x, .inr rfl⟩)) c
  case ldI nnn => cases h; exact .index _ (.inl ⟨nnn, rfl⟩)
  case addI x => cases h; exact .index _ (.inr ⟨x, .inl rfl⟩)
  case ldF x => cases h; exact .index _ (.inr ⟨x, .inr rfl⟩)
  case rnd x nn => cases h; exact .random x nn _
  case drw x y n => obtain ⟨-, rfl⟩ := execDrw_next h; exact .draw x y n
  case ldK x => cases h; exact .wait x
  case ldSetDT x => cases h; exact .delay x _
  case ldSetST x => cases h; exact .sound x _
  case ldB x =>
    obtain ⟨hr, rfl⟩ := execLdB_next h
    exact .store _ ⟨x, .inl rfl⟩ fun hm => wf_storeDigits hm _ hr
  case ldStore x =>
    obtain ⟨hr, rfl⟩ := execLdStore_next h
    exact .store _ ⟨x, .inr rfl⟩ fun hm => wf_storeRegs hm hr
  case ldLoad x => obtain ⟨-, rfl⟩ := execLdLoad_next h; exact .of_loadRegs x s
  case addReg | sub | shr | subn | shl =>
    cases h
    exact .of_writeResultThenFlag (by simp [mayWriteRegister]) (by simp [mayWriteRegister]) s _ _
  case ldImm | addImm | ldReg | orReg | andReg | xorReg | ldGetDT =>
    cases h
    exact .of_writeV (by simp [mayWriteRegister]) s _

/-! ### The invariant -/

/-- An instruction given pc at most 0x1000, as the step gives it, keeps the invariant: a call pushes that pc, and a skip
adds 2 to it. -/
theorem Effect.keeps_inv {i : Instr} {s t : State} (e : Effect i s t) (hs : s.Inv) (hpc : s.pc.toNat ≤ 0x1000) :
    t.Inv := by
  obtain ⟨memWf, pcBound, stackBound⟩ := hs
  cases e with
  | registers | random | draw | clear | index | wait | delay | sound => exact ⟨memWf, pcBound, stackBound⟩
  | store m _ canonical => exact ⟨canonical memWf, pcBound, stackBound⟩
  | jump a _ bound => exact ⟨memWf, bound, stackBound⟩
  | ret => exact ⟨memWf, (stackBound ⟨s.sp.val - 1, by omega⟩).trans (by decide), stackBound⟩
  | skip _ c =>
    refine ⟨by simpa using memWf, ?_, by simpa using stackBound⟩
    rw [State.skipIf_pc]
    split
    · bv_omega
    · exact pcBound
  | call nnn h =>
    refine ⟨memWf, ?_, fun k => ?_⟩
    · rw [State.setPc_pc, toNat_zextAddr]
      omega
    · rw [State.setPc_stack, State.push_stack, Vector.getElem_set]
      split
      · exact hpc
      · exact stackBound k

theorem State.Inv.advance {s : State} (hs : s.Inv) (hr : s.pc.toNat ≤ 0xFFE) :
    s.advance.Inv ∧ s.advance.pc.toNat ≤ 0x1000 := by
  have hpc := toNat_advance_pc hr
  exact ⟨⟨hs.memWf, by omega, hs.stackBound⟩, by omega⟩

/-- Settles O56: a fetch is in range, so an instruction is given pc at most 0x1000, and its effect keeps the invariant. -/
theorem everyStepKeepsTheInvariant : Obligations.EveryStepKeepsTheInvariant := by
  intro s t hs hstep
  obtain ⟨-, rfl⟩ | ⟨-, hr, hcases⟩ := step_next_cases hstep
  · exact hs
  obtain ⟨hadv, hpc⟩ := hs.advance hr
  obtain ⟨i, -, hexec⟩ | ⟨-, rfl⟩ := hcases
  · exact (exec_effect hexec).keeps_inv hadv hpc
  · exact ⟨hadv.memWf, hadv.pcBound, hadv.stackBound⟩

/-- Settles O55: memory lists nothing, pc is 0x200 and the stack holds zeros. -/
theorem resetMeetsTheInvariant : Obligations.ResetMeetsTheInvariant :=
  ⟨Memory.wf_nil, by decide, by decide⟩

/-! ### What each instruction leaves unchanged -/

/-- Settles O52, class by class. -/
theorem eachKindOfStateHasItsWriters : Obligations.EachKindOfStateHasItsWriters := by
  intro i s t hexec
  cases exec_effect hexec with
  | registers V writes _ => simp [writes]
  | random x nn r => simp [rndWith, mayWriteRegister]
  | draw x y n => rw [drawEffect_frame]; simp [mayWriteRegister]
  | jump a jumps _ => obtain ⟨nnn, rfl | rfl⟩ := jumps <;> simp
  | skip skips c => simpa using fun _ => .inr (.inr skips)
  | index v indexes => simp [indexes]
  | store m stores _ => simp [stores]
  | clear | call | ret | wait | delay | sound => simp

/-- Settles O53: only the classes `registers`, `random` and `draw` write registers. -/
theorem registersChangeOnlyWhereTabulated : Obligations.RegistersChangeOnlyWhereTabulated := by
  intro i k s t hexec hk
  cases exec_effect hexec with
  | registers V _ kept => exact kept k hk
  | random x nn r => exact s.writeV_V_other hk _
  | draw x y n => exact (s.setFb _).writeV_V_other hk _
  | skip _ c => rw [State.skipIf_V]
  | clear | jump | call | ret | index | store | wait | delay | sound => rfl

/-! ### Reset -/

/-- Above the font an address holds 0 after `reset()` (10_state.md R40). -/
theorem fontByte_of_ge {a : Nat} (h : 80 ≤ a) : fontByte a = 0 :=
  List.getD_eq_default _ _ h

/-- Settles O50: field by field; memory lists nothing, so it reads as the font and zeros. -/
theorem resetPutsEveryFieldToItsValue : Obligations.ResetPutsEveryFieldToItsValue := by
  intro s
  refine ⟨hostReset s, rfl, fun k => ?_, rfl, rfl, rfl, rfl, rfl, pixel_clear, rfl, rfl, rfl, fun j _ => rfl,
    fun a ha _ => fontByte_of_ge ha, rfl⟩
  simp [hostReset, State.reset]

end Sys2Proof.Machine
end

section
/-!
PROOFS of the statement about memory (20_memory.md): code and data share the one memory, so the two bytes a fetch reads
where FX55 stored are two of the stored registers.
-/

namespace Sys2Proof.Machine

open Sys2Proof.Claims

/-- A RUNNING step with pc in range and a known word runs it on the advanced pc (40_step_cycle.md R122..R125). -/
theorem step_of_decodeWord {s : State} {i : Instr} (hm : s.mode = .running) (hr : s.pc.toNat ≤ 0xFFE)
    (hd : decodeWord s.fetchWord = some i) : step s = exec i s.advance := by
  simp [step, hm, (fetchInRange_iff s).2 hr, hd]

/-- FX55 in range copies V0..VX (43_index_memory.md R194). -/
theorem exec_ldStore_of_inRange {x : Reg} {s : State} (h : s.I.toNat + x.val ≤ 0xFFF) :
    exec (.ldStore x) s = .next (s.storeRegs x) :=
  guardAccess_of_inRange _ _ (.inr (by omega))

/-- After FX55 the byte at `I + k` is `V[k]`, for `k` at most X (43_index_memory.md R194). -/
theorem read_storeRegs_of_le (s : State) {x k : Reg} (hk : k ≤ x) :
    (s.storeRegs x).mem.read (s.I.toNat + k.val) = s.V[k] := by
  have hle : k.val ≤ x.val := hk
  rw [read_storeRegs, dif_pos (by omega)]
  simp [State.readV]

/-- The word fetched after FX55 from a state whose pc is at `I + k` is `Vk` followed by `Vk+1` (20_memory.md R74). -/
theorem fetchWord_storeRegs (s : State) {x k j : Reg} (hkj : j.val = k.val + 1) (hj : j ≤ x) {pc : Word}
    (hpc : pc.toNat = s.I.toNat + k.val) : ((s.storeRegs x).setPc pc).fetchWord = s.V[k] ++ s.V[j] := by
  have hk : k ≤ x := (Fin.le_def.2 (by omega)).trans hj
  have hadj : s.I.toNat + k.val + 1 = s.I.toNat + j.val := by omega
  rw [State.fetchWord, State.setPc_mem, State.setPc_pc, hpc, hadj, read_storeRegs_of_le s hk,
    read_storeRegs_of_le s hj, composeWord]

/-- Settles O35: `I + k` does not wrap and is a fetch address, as `k + 1` is at most X, and the word there is the two
registers stored there. -/
theorem storedBytesAreFetched : Obligations.StoredBytesAreFetched := by
  intro x k j s hI hkj hj
  refine ⟨s.storeRegs x, exec_ldStore_of_inRange hI, fun i hd hm => ?_⟩
  have hle : j.val ≤ x.val := hj
  have hpc : (s.I + BitVec.ofNat 16 k.val).toNat = s.I.toNat + k.val := by
    rw [BitVec.toNat_add, BitVec.toNat_ofNat]
    omega
  have hr : (s.I + BitVec.ofNat 16 k.val).toNat ≤ 0xFFE := by omega
  exact step_of_decodeWord hm hr ((fetchWord_storeRegs s hkj hj hpc).symm ▸ hd)

end Sys2Proof.Machine
end

section
/-!
PROOFS of the statements about the encoding (30_encoding.md). A decoder answer keeps every bit of its word, and the encoder
puts the fields where the decoder reads them. For the opcode map: the decoder looks at nothing but the fixed bits of the
word's group, and these are the mask of every row of the group.
-/

namespace Sys2Proof

open Sys2Proof.Claims Sys2Proof.Machine

/-! ### The words of the statements are the encoder's formats -/

theorem digits_eq_packDigits (g : BitVec 4) (x y n : Fin 16) : digits g x y n = packDigits g x y n := rfl

theorem digitsByte_eq_packByte (g : BitVec 4) (x : Reg) (nn : Byte) : digitsByte g x nn = packByte g x nn := rfl

theorem digitsAddr_eq_packAddr (g : BitVec 4) (nnn : BitVec 12) : digitsAddr g nnn = packAddr g nnn := rfl

/-! ### The groups that look further than the high nibble -/

theorem decodeWord_group8 (x y n : Fin 16) : decodeWord (packDigits 0x8 x y n) = decodeGroup8 x y n.val := by
  simp [decodeWord, fieldG_packDigits, fieldX_packDigits, fieldY_packDigits, fieldN_packDigits]

theorem decodeWord_groupE (x : Reg) (nn : Byte) : decodeWord (packByte 0xE x nn) = decodeGroupE x nn.toNat := by
  simp [decodeWord, fieldG_packByte, fieldX_packByte, fieldNN_packByte]

theorem decodeWord_groupF (x : Reg) (nn : Byte) : decodeWord (packByte 0xF x nn) = decodeGroupF x nn.toNat := by
  simp [decodeWord, fieldG_packByte, fieldX_packByte, fieldNN_packByte]

theorem decodeWord_group0 (nnn : BitVec 12) : decodeWord (packAddr 0x0 nnn) = decodeGroup0 (packAddr 0x0 nnn) := by
  simp [decodeWord, fieldG_packAddr]

theorem packAddr_inj {g : BitVec 4} {a b : BitVec 12} : packAddr g a = packAddr g b ↔ a = b :=
  ⟨fun h => by rw [← fieldNNN_packAddr g a, h, fieldNNN_packAddr], congrArg _⟩

/-! ### Decode of encode, format by format -/

theorem decodeWord_encode (i : Instr) : decodeWord (encode i) = some i := by
  cases i
  case cls | ret => rfl
  case jp | call | ldI | jpV0 => simp [encode, decodeWord, fieldG_packAddr, fieldNNN_packAddr]
  case seImm | sneImm | ldImm | addImm | rnd =>
    simp [encode, decodeWord, fieldG_packByte, fieldX_packByte, fieldNN_packByte]
  case seReg | sneReg | drw =>
    simp [encode, decodeWord, fieldG_packDigits, fieldX_packDigits, fieldY_packDigits, fieldN_packDigits]
  case ldReg | orReg | andReg | xorReg | addReg | sub | shr | subn | shl => exact decodeWord_group8 _ _ _
  case skp | sknp => exact decodeWord_groupE _ _
  case ldGetDT | ldK | ldSetDT | ldSetST | addI | ldF | ldB | ldStore | ldLoad => exact decodeWord_groupF _ _

/-- Settles O2, constructor by constructor. -/
theorem decodeOfEncodeIsTheInstruction : Obligations.DecodeOfEncodeIsTheInstruction := decodeWord_encode

/-! ### Encode of decode, group by group -/

theorem encode_of_decodeGroup0 {w : Word} {i : Instr} (h : decodeGroup0 w = some i) : encode i = w := by
  unfold decodeGroup0 at h
  split at h
  case isTrue hw => cases h; exact hw.symm
  case isFalse =>
    split at h
    case isTrue hw => cases h; exact hw.symm
    case isFalse => cases h

theorem encode_of_decodeGroup8 {x y : Reg} {k : Nat} {i : Instr} (h : decodeGroup8 x y k = some i) :
    encode i = packDigits 0x8 x y (Fin.ofNat 16 k) := by
  unfold decodeGroup8 at h
  split at h <;> cases h <;> rfl

theorem encode_of_decodeGroupE {x : Reg} {k : Nat} {i : Instr} (h : decodeGroupE x k = some i) :
    encode i = packByte 0xE x (BitVec.ofNat 8 k) := by
  unfold decodeGroupE at h
  split at h <;> cases h <;> rfl

theorem encode_of_decodeGroupF {x : Reg} {k : Nat} {i : Instr} (h : decodeGroupF x k = some i) :
    encode i = packByte 0xF x (BitVec.ofNat 8 k) := by
  unfold decodeGroupF at h
  split at h <;> cases h <;> rfl

theorem encode_of_decodeWord {w : Word} {i : Instr} (h : decodeWord w = some i) : encode i = w := by
  unfold decodeWord at h
  split at h
  case h_1 => exact encode_of_decodeGroup0 h
  case h_2 hG | h_3 hG | h_11 hG | h_12 hG => cases h; exact packAddr_fields w _ hG
  case h_4 hG | h_5 hG | h_7 hG | h_8 hG | h_13 hG => cases h; exact packByte_fields w _ hG
  case h_14 hG => cases h; exact packDigits_fields w _ hG
  case h_6 hG | h_10 hG =>
    split at h
    case isTrue hN => cases h; rw [encode, ← hN]; exact packDigits_fields w _ hG
    case isFalse => cases h
  case h_9 hG =>
    rw [encode_of_decodeGroup8 h, Fin.ofNat_val_eq_self]
    exact packDigits_fields w _ hG
  case h_15 hG =>
    rw [encode_of_decodeGroupE h, BitVec.ofNat_toNat, BitVec.setWidth_eq]
    exact packByte_fields w _ hG
  case h_16 hG =>
    rw [encode_of_decodeGroupF h, BitVec.ofNat_toNat, BitVec.setWidth_eq]
    exact packByte_fields w _ hG
  case h_17 => cases h

/-- Settles O3, group by group. -/
theorem encodeOfDecodeIsTheWord : Obligations.EncodeOfDecodeIsTheWord := fun _ _ => encode_of_decodeWord

/-! ### The groups, word by word -/

/-- Settles O4: the words of each group reach the group's own table; a numeral of it is compared as the field is. -/
theorem groupsWithSecondaryOpcodeDecode : Obligations.GroupsWithSecondaryOpcodeDecode := by
  refine ⟨fun nnn => ?_, fun x y n => ?_, fun x y y' s => ⟨rfl, rfl⟩, fun x nn => ?_, fun x nn => ?_⟩
  · have cls : packAddr 0x0 nnn = 0x00E0#16 ↔ nnn = 0x0E0 := packAddr_inj (b := 0x0E0)
    have ret : packAddr 0x0 nnn = 0x00EE#16 ↔ nnn = 0x0EE := packAddr_inj (b := 0x0EE)
    simp only [digitsAddr_eq_packAddr, decodeWord_group0, decodeGroup0, cls, ret]
  · rw [digits_eq_packDigits, decodeWord_group8]
    fin_cases n <;> rfl
  · rw [digitsByte_eq_packByte, decodeWord_groupE]
    simp only [BitVec.toNat_eq]
    unfold decodeGroupE
    split <;> simp_all
  · rw [digitsByte_eq_packByte, decodeWord_groupF]
    simp only [BitVec.toNat_eq]
    unfold decodeGroupF
    split <;> simp_all

/-- Settles O6: each of these words is the encoding of its instruction. -/
theorem groupsOnHighNibbleAloneDecode : Obligations.GroupsOnHighNibbleAloneDecode :=
  ⟨fun nnn => ⟨decodeWord_encode (.jp nnn), decodeWord_encode (.call nnn), decodeWord_encode (.ldI nnn),
      decodeWord_encode (.jpV0 nnn)⟩,
    fun x nn => ⟨decodeWord_encode (.seImm x nn), decodeWord_encode (.sneImm x nn), decodeWord_encode (.ldImm x nn),
      decodeWord_encode (.addImm x nn), decodeWord_encode (.rnd x nn)⟩,
    fun x y n => decodeWord_encode (.drw x y n)⟩

/-- Settles O1, ten closed words. -/
theorem wordsWrittenFromPatternsDecode : Obligations.WordsWrittenFromPatternsDecode := by
  unfold Obligations.WordsWrittenFromPatternsDecode
  decide

/-! ### The opcode map -/

/-- The fixed bits of the rows of a group: the whole word in group 0, the high nibble, and the low nibble or the low byte
where the group has a secondary opcode (30_encoding.md R94, R96..R100; groups 5 and 9 by the decision D9, log 15). -/
def groupMask : Nat → Word
  | 0x0 => 0xFFFF#16
  | 0x5 | 0x8 | 0x9 => 0xF00F#16
  | 0xE | 0xF => 0xF0FF#16
  | _ => 0xF000#16

/-- The mask of every row is that of its group, and the decoder takes the row's value, a word of the row, to the row's
mnemonic. -/
theorem opcodeMap_row {r : OpcodeRow} (hr : r ∈ opcodeMap) :
    r.mask = groupMask (fieldG r.value) ∧ (decodeWord r.value).map Instr.mnemonic = some r.mnemonic := by
  revert r
  decide

theorem fieldG_and_groupMask (w : Word) (g : Nat) : fieldG (w &&& groupMask g) = fieldG w := by
  have hm : (groupMask g).extractLsb' 12 4 = BitVec.allOnes 4 := by unfold groupMask; split <;> rfl
  rw [fieldG, BitVec.extractLsb'_and, hm, BitVec.and_allOnes, fieldG]

theorem fieldN_and_F00F (w : Word) : fieldN (w &&& 0xF00F#16) = fieldN w := by
  have hm : (0xF00F#16).extractLsb' 0 4 = BitVec.allOnes 4 := rfl
  simp only [fieldN, BitVec.extractLsb'_and, hm, BitVec.and_allOnes]

theorem fieldNN_and_F0FF (w : Word) : fieldNN (w &&& 0xF0FF#16) = fieldNN w := by
  have hm : (0xF0FF#16).extractLsb' 0 8 = BitVec.allOnes 8 := rfl
  rw [fieldNN, BitVec.extractLsb'_and, hm, BitVec.and_allOnes, fieldNN]

theorem mnemonic_decodeGroup8 (x y x' y' : Reg) (k : Nat) :
    (decodeGroup8 x y k).map Instr.mnemonic = (decodeGroup8 x' y' k).map Instr.mnemonic := by
  unfold decodeGroup8
  split <;> rfl

theorem mnemonic_decodeGroupE (x x' : Reg) (k : Nat) :
    (decodeGroupE x k).map Instr.mnemonic = (decodeGroupE x' k).map Instr.mnemonic := by
  unfold decodeGroupE
  split <;> rfl

theorem mnemonic_decodeGroupF (x x' : Reg) (k : Nat) :
    (decodeGroupF x k).map Instr.mnemonic = (decodeGroupF x' k).map Instr.mnemonic := by
  unfold decodeGroupF
  split <;> rfl

/-- Which instruction a word is, the decoder reads off the fixed bits of the word's group alone. -/
theorem mnemonic_and_groupMask (w : Word) :
    (decodeWord (w &&& groupMask (fieldG w))).map Instr.mnemonic = (decodeWord w).map Instr.mnemonic := by
  have hG := fieldG_and_groupMask w (fieldG w)
  unfold decodeWord
  rw [hG]
  split
  case h_1 hg =>
    have hall : w &&& groupMask 0 = w := BitVec.and_allOnes
    rw [hg, hall]
  case h_6 hg | h_10 hg =>
    rw [hg, groupMask, fieldN_and_F00F]
    split <;> rfl
  case h_9 hg =>
    rw [hg, groupMask, fieldN_and_F00F]
    exact mnemonic_decodeGroup8 ..
  case h_15 hg =>
    rw [hg, groupMask, fieldNN_and_F0FF]
    exact mnemonic_decodeGroupE ..
  case h_16 hg =>
    rw [hg, groupMask, fieldNN_and_F0FF]
    exact mnemonic_decodeGroupF ..
  all_goals rfl

/-- A row's mask and value are the fixed bits of every word that selects it, for the group of that word. -/
theorem fixedBits_of_selects {r : OpcodeRow} (hr : r ∈ opcodeMap) {w : Word} (h : r.selects w = true) :
    r.mask = groupMask (fieldG w) ∧ r.value = w &&& groupMask (fieldG w) := by
  have hv : w &&& r.mask = r.value := by simpa [OpcodeRow.selects] using h
  have hm := (opcodeMap_row hr).1
  have hG : fieldG r.value = fieldG w := by
    rw [← hv, hm, fieldG_and_groupMask]
  rw [hG] at hm
  exact ⟨hm, by rw [← hm, hv]⟩

theorem mnemonic_of_selects {r : OpcodeRow} (hr : r ∈ opcodeMap) {w : Word} (h : r.selects w = true) :
    (decodeWord w).map Instr.mnemonic = some r.mnemonic := by
  rw [← mnemonic_and_groupMask, ← (fixedBits_of_selects hr h).2]
  exact (opcodeMap_row hr).2

theorem packAddr_and_F000 (g : BitVec 4) (nnn : BitVec 12) : packAddr g nnn &&& 0xF000#16 = packAddr g 0 := by
  show (g ++ nnn) &&& (BitVec.allOnes 4 ++ 0#12) = g ++ 0#12
  rw [BitVec.and_append, BitVec.and_allOnes, BitVec.and_zero]

theorem packByte_and_F000 (g : BitVec 4) (x : Reg) (nn : Byte) : packByte g x nn &&& 0xF000#16 = packByte g 0 0 := by
  show (g ++ _ ++ nn) &&& (BitVec.allOnes 4 ++ 0#4 ++ 0#8) = g ++ 0#4 ++ 0#8
  rw [BitVec.and_append, BitVec.and_append, BitVec.and_allOnes, BitVec.and_zero, BitVec.and_zero]

theorem packByte_and_F0FF (g : BitVec 4) (x : Reg) (nn : Byte) : packByte g x nn &&& 0xF0FF#16 = packByte g 0 nn := by
  show (g ++ _ ++ nn) &&& (BitVec.allOnes 4 ++ 0#4 ++ BitVec.allOnes 8) = g ++ 0#4 ++ nn
  rw [BitVec.and_append, BitVec.and_append, BitVec.and_allOnes, BitVec.and_zero, BitVec.and_allOnes]

theorem packDigits_and_F000 (g : BitVec 4) (x y n : Fin 16) :
    packDigits g x y n &&& 0xF000#16 = packDigits g 0 0 0 := by
  show (g ++ _ ++ _ ++ _) &&& (BitVec.allOnes 4 ++ 0#4 ++ 0#4 ++ 0#4) = g ++ 0#4 ++ 0#4 ++ 0#4
  rw [BitVec.and_append, BitVec.and_append, BitVec.and_append, BitVec.and_allOnes,
    BitVec.and_zero, BitVec.and_zero, BitVec.and_zero]

theorem packDigits_and_F00F (g : BitVec 4) (x y n : Fin 16) :
    packDigits g x y n &&& 0xF00F#16 = packDigits g 0 0 n := by
  show (g ++ _ ++ _ ++ BitVec.ofFin (w := 4) n) &&& (BitVec.allOnes 4 ++ 0#4 ++ 0#4 ++ BitVec.allOnes 4) =
    g ++ 0#4 ++ 0#4 ++ BitVec.ofFin (w := 4) n
  rw [BitVec.and_append, BitVec.and_append, BitVec.and_append, BitVec.and_allOnes,
    BitVec.and_zero, BitVec.and_zero, BitVec.and_allOnes]

/-- The row of an instruction: its mnemonic and the fixed bits of its word. -/
def Instr.row (i : Instr) : OpcodeRow :=
  ⟨i.mnemonic, groupMask (fieldG (encode i)), encode i &&& groupMask (fieldG (encode i))⟩

/-- Masking a format sets its operands to 0, so a row of the map is left. -/
theorem Instr.row_mem (i : Instr) : i.row ∈ opcodeMap := by
  cases i
  case cls | ret => decide
  all_goals
    simp only [Instr.row, Instr.mnemonic, encode, groupMask, BitVec.reduceToNat, fieldG_packAddr, fieldG_packByte,
      fieldG_packDigits, packAddr_and_F000, packByte_and_F000, packByte_and_F0FF, packDigits_and_F000,
      packDigits_and_F00F]
    decide

theorem Instr.row_selects (i : Instr) : i.row.selects (encode i) = true := beq_self_eq_true _

theorem selects_unique {w : Word} {r q : OpcodeRow} (hr : r ∈ opcodeMap) (hq : q ∈ opcodeMap)
    (hrw : r.selects w = true) (hqw : q.selects w = true) : r = q := by
  obtain ⟨hrm, hrv⟩ := fixedBits_of_selects hr hrw
  obtain ⟨hqm, hqv⟩ := fixedBits_of_selects hq hqw
  have hname := Option.some.inj ((mnemonic_of_selects hr hrw).symm.trans (mnemonic_of_selects hq hqw))
  cases r
  cases q
  exact (OpcodeRow.mk.injEq ..).mpr ⟨hname, hrm.trans hqm.symm, hrv.trans hqv.symm⟩

theorem decodeWord_of_selects_none {w : Word} (h : ∀ r ∈ opcodeMap, ¬ r.selects w = true) : decodeWord w = none := by
  refine Option.eq_none_iff_forall_ne_some.2 fun i hi => h i.row i.row_mem ?_
  rw [← encode_of_decodeWord hi]
  exact i.row_selects

theorem mnemonic_eq_find? (w : Word) :
    (decodeWord w).map Instr.mnemonic = (opcodeMap.find? (·.selects w)).map OpcodeRow.mnemonic := by
  cases hfind : opcodeMap.find? (·.selects w) with
  | some r =>
    have hsel := List.find?_some hfind
    exact mnemonic_of_selects (List.mem_of_find?_eq_some hfind) hsel
  | none =>
    rw [decodeWord_of_selects_none (List.find?_eq_none.1 hfind)]
    rfl

/-- Settles O7: a row that selects the word has the mnemonic the decoder answers, and a word that decodes selects the row of
its instruction. -/
theorem decoderSelectsTheOpcodeMapRow : Obligations.DecoderSelectsTheOpcodeMapRow := fun w =>
  ⟨mnemonic_eq_find? w, fun _ hr _ hq => selects_unique hr hq⟩

end Sys2Proof
end

section
/-!
PROOFS of the statements about the step cycle (40_step_cycle.md): what a step does in each of its cases, and the word and
the address a failed instruction reports.
-/

namespace Sys2Proof.Machine

open Sys2Proof.Claims

/-! ### A step in each of its cases -/

/-- AWAITING_KEY suspends stepping (40_step_cycle.md R127). -/
theorem step_of_awaitingKey {s : State} (hm : s.mode = .awaitingKey) : step s = .next s := by
  simp [step, hm]

/-- A RUNNING step with pc out of range fetches nothing (40_step_cycle.md R121). -/
theorem step_of_pc_gt {s : State} (hm : s.mode = .running) (hr : 0xFFE < s.pc.toNat) :
    step s = .fault (.fetchOutOfRange s.pc) := by
  simp [step, hm, State.fetchInRange, hr]

/-- A RUNNING step on an unknown word (40_step_cycle.md R126). -/
theorem step_of_decodeWord_none {s : State} (hm : s.mode = .running) (hr : s.pc.toNat ≤ 0xFFE)
    (hd : decodeWord s.fetchWord = none) : step s = .next (unknownOpcodeStep s) := by
  simp [step, hm, (fetchInRange_iff s).2 hr, hd]

/-- A state that a step answers again is the end of every run from it. -/
theorem run_of_step_self {s : State} (h : step s = .next s) (k : Nat) : Sys2Proof.core.run k s = .next s := by
  induction k with
  | zero => rfl
  | succ k ih => rw [run_succ_of_next h, ih]

/-! ### What the host is told -/

theorem completionResult_of_awaitingKey {s : State} (hm : s.mode = .awaitingKey) :
    completionResult s = .suspended := by
  simp [completionResult, hm]

theorem completionResult_of_decodeWord_none {s : State} (hm : s.mode = .running)
    (hd : decodeWord s.fetchWord = none) : completionResult s = .executedUnknown s.pc s.fetchWord := by
  simp [completionResult, hm, hd]

theorem transition_step_of_next {s t : State} (h : step s = .next t) :
    transition .step s = (t, .stepped (completionResult s)) := by
  rw [transition, stepOperation_of_next h]

theorem transition_step_of_fault {s : State} {f : Fault} (h : step s = .fault f) :
    transition .step s = (afterError s f, .stepped (.error f)) := by
  rw [transition, stepOperation_of_fault h]

/-! ### What a failed instruction reports -/

theorem execRet_fault {s : State} {f : Fault} (h : execRet s = .fault f) :
    s.sp.val = 0 ∧ f = .stackUnderflow s.fetchAddress (encode .ret) := by
  unfold execRet at h
  split at h
  next hs => cases h; exact ⟨hs, rfl⟩
  next => cases h

theorem execCall_fault {nnn : BitVec 12} {s : State} {f : Fault} (h : execCall nnn s = .fault f) :
    ¬ s.sp.val < 16 ∧ f = .stackOverflow s.fetchAddress (encode (.call nnn)) := by
  unfold execCall at h
  split at h
  next => cases h
  next hs => cases h; exact ⟨hs, rfl⟩

theorem guardAccess_fault {i : Instr} {count : Nat} {s done : State} {f : Fault}
    (h : guardAccess i count s done = .fault f) :
    (count ≠ 0 ∧ 0x1000 < s.I.toNat + count) ∧
      f = .dataOutOfRange (max s.I.toNat 0x1000) s.fetchAddress (encode i) := by
  obtain ⟨-, e⟩ | ⟨hr, e⟩ := guardAccess_cases i count s done
  · rw [e] at h
    cases h
  · rw [e] at h
    cases h
    exact ⟨hr, rfl⟩

theorem keySkip_fault {i : Instr} {vx : Byte} {b : Bool} {s : State} {f : Fault}
    (h : keySkip i vx b s = .fault f) : 16 ≤ vx.toNat ∧ f = .keyOperandRange vx s.fetchAddress (encode i) := by
  by_cases hv : vx.toNat < 16
  · rw [keySkip_of_lt i b s hv] at h
    cases h
  · have hge := Nat.le_of_not_lt hv
    rw [keySkip_of_ge i b s hge] at h
    cases h
    exact ⟨hge, rfl⟩

/-- Whatever fails in an instruction, the error carries the fetch address and the instruction's word
(60_exceptions.md R250). -/
theorem carries_of_exec_fault {i : Instr} {s : State} {f : Fault} (h : exec i s = .fault f) :
    carries f s.fetchAddress (encode i) := by
  cases i
  case ret => exact .inr (.inl (execRet_fault h).2)
  case call nnn => exact .inl (execCall_fault h).2
  case drw | ldB | ldStore | ldLoad => exact .inr (.inr (.inl ⟨_, (guardAccess_fault h).2⟩))
  case skp | sknp => exact .inr (.inr (.inr ⟨_, (keySkip_fault h).2⟩))
  all_goals cases h

/-- An error that carries an address and a word is an instruction's, so it leaves pc advanced (40_step_cycle.md R128). -/
theorem afterError_of_carries {f : Fault} {addr op : Word} (h : carries f addr op) (s : State) :
    afterError s f = s.advance := by
  obtain rfl | rfl | ⟨first, rfl⟩ | ⟨operand, rfl⟩ := h <;> rfl

/-! ### The statements -/

/-- Settles O10: a step answers the state itself, so every run does, by induction on its length. -/
theorem stepsWhileAwaitingKeyChangeNothing : Obligations.StepsWhileAwaitingKeyChangeNothing := by
  intro s hm
  have hstep := step_of_awaitingKey hm
  refine ⟨run_of_step_self hstep, ?_⟩
  rw [transition_step_of_next hstep, completionResult_of_awaitingKey hm]

/-- Settles O13: a failed fetch leaves the state; a failed instruction was run on the advanced state, whose fetch address
is the old pc, and its word is the one fetched. -/
theorem failedStepChangesOnlyPc : Obligations.FailedStepChangesOnlyPc := by
  intro s f hstep
  rw [stepOperation_of_fault hstep]
  obtain ⟨-, ⟨hr, rfl⟩ | ⟨hr, i, hd, hexec⟩⟩ := step_fault_cases hstep
  · exact .inl ⟨hr, rfl, rfl⟩
  · have hcarries := carries_of_exec_fault hexec
    rw [fetchAddress_advance, encode_of_decodeWord hd] at hcarries
    rw [afterError_of_carries hcarries]
    exact .inr ⟨hr, hcarries, rfl⟩

/-- Settles O8: the two bytes composed are the fetched word. -/
theorem stepRunsTheDecodedInstruction : Obligations.StepRunsTheDecodedInstruction :=
  fun _ _ hm hr hd => step_of_decodeWord hm hr hd

/-- Settles O9: the word is the fetched one, so the step emits its diagnostic from the advanced state and completes. -/
theorem unknownOpcodeIsANoOpWithADiagnostic : Obligations.UnknownOpcodeIsANoOpWithADiagnostic := by
  rintro s op hm hr rfl hd
  have hstep := step_of_decodeWord_none hm hr hd
  refine ⟨hstep, ?_⟩
  rw [transition_step_of_next hstep, completionResult_of_decodeWord_none hm hd]
  rfl

/-- Settles O11: the error is FetchOutOfRange, which leaves the whole state. -/
theorem fetchAboveMemoryEndIsAnError : Obligations.FetchAboveMemoryEndIsAnError := by
  intro s hm hr
  have hstep := step_of_pc_gt hm hr
  exact ⟨hstep, transition_step_of_fault hstep⟩

end Sys2Proof.Machine
end

section
/-!
PROOFS of the statements about control transfer (41_flow.md): the calls, the return and the skips, each with its
equation, and a list of nested calls by induction, from any depth.
-/

namespace Sys2Proof.Machine

open Sys2Proof.Claims

/-! ### Calls and returns -/

/-- The zero extension of an address is the word of the same number (30_encoding.md R93). -/
theorem zextAddr_eq_ofNat (nnn : BitVec 12) : zextAddr nnn = BitVec.ofNat 16 nnn.toNat :=
  (BitVec.ofNat_toNat 16 nnn).symm

/-- 2NNN on a stack that is not full (41_flow.md R142). -/
theorem exec_call_of_lt (nnn : BitVec 12) {s : State} (h : s.sp.val < 16) :
    exec (.call nnn) s = .next ((s.push s.pc h).setPc (zextAddr nnn)) :=
  dif_pos h

/-- 2NNN on a full stack (41_flow.md R142). -/
theorem exec_call_of_not_lt (nnn : BitVec 12) {s : State} (h : ¬ s.sp.val < 16) :
    exec (.call nnn) s = .fault (.stackOverflow s.fetchAddress (encode (.call nnn))) :=
  dif_neg h

/-- 00EE on a stack that is not empty (41_flow.md R140). -/
theorem exec_ret_of_ne_zero {s : State} (h : s.sp.val ≠ 0) : exec .ret s = .next s.popPc :=
  if_neg h

/-! ### Nested calls -/

theorem callAll_cons_of_next {a : BitVec 12} {s t : State} (as : List (BitVec 12))
    (h : exec (.call a) s.advance = .next t) : callAll (a :: as) s = callAll as t := by
  rw [callAll, h]

theorem callAll_cons_of_fault {a : BitVec 12} {s : State} {f : Fault} (as : List (BitVec 12))
    (h : exec (.call a) s.advance = .fault f) : callAll (a :: as) s = .fault f := by
  rw [callAll, h]

/-- The state the first of several calls leaves, one deeper, is the one the others run from. -/
theorem callAll_cons_of_lt (a : BitVec 12) (as : List (BitVec 12)) {s : State} (h : s.sp.val < 16) :
    ∃ t, t.sp.val = s.sp.val + 1 ∧ callAll (a :: as) s = callAll as t :=
  ⟨_, rfl, callAll_cons_of_next as (exec_call_of_lt a (s := s.advance) h)⟩

/-- Calls that fit into the stack all run. -/
theorem callAll_of_le (as : List (BitVec 12)) {s : State} (h : s.sp.val + as.length ≤ 16) :
    ∃ t, callAll as s = .next t ∧ t.sp.val = s.sp.val + as.length := by
  induction as generalizing s with
  | nil => exact ⟨s, rfl, rfl⟩
  | cons a as ih =>
    rw [List.length_cons] at h
    obtain ⟨t, hdepth, hrest⟩ := callAll_cons_of_lt a as (s := s) (by omega)
    obtain ⟨u, hu, hudepth⟩ := ih (s := t) (by omega)
    exact ⟨u, hrest.trans hu, by rw [List.length_cons]; omega⟩

/-- Calls that do not fit into the stack end in StackOverflow: the first that finds it full raises it. -/
theorem callAll_of_gt (as : List (BitVec 12)) {s : State} (h : 16 < s.sp.val + as.length) :
    ∃ addr op, callAll as s = .fault (.stackOverflow addr op) := by
  induction as generalizing s with
  | nil =>
    rw [List.length_nil] at h
    omega
  | cons a as ih =>
    rw [List.length_cons] at h
    by_cases hs : s.sp.val < 16
    · obtain ⟨t, hdepth, hrest⟩ := callAll_cons_of_lt a as hs
      obtain ⟨addr, op, hfault⟩ := ih (s := t) (by omega)
      exact ⟨addr, op, hrest.trans hfault⟩
    · exact ⟨_, _, callAll_cons_of_fault as (exec_call_of_not_lt a (s := s.advance) hs)⟩

/-- Settles O21: from an empty stack at most 16 calls fit, and 17 do not. -/
theorem seventeenthNestedCallOverflows : Obligations.SeventeenthNestedCallOverflows := by
  intro as s hs
  have hdepth : s.sp.val = 0 := by rw [hs]; rfl
  refine ⟨fun hlen => ?_, fun hlen => callAll_of_gt as (by omega)⟩
  obtain ⟨t, ht, htdepth⟩ := callAll_of_le as (s := s) (by omega)
  exact ⟨t, ht, by omega⟩

/-! ### Jumps -/

/-- Settles O14: the word is the jump's encoding, and zero extension keeps the number. -/
theorem jumpSetsPcToTheAddress : Obligations.JumpSetsPcToTheAddress := by
  intro nnn s
  refine ⟨decodeWord_encode (.jp nnn), ?_⟩
  rw [← zextAddr_eq_ofNat]
  rfl

/-- BNNN's 16-bit sum does not wrap: a 12-bit and an 8-bit number (41_flow.md R147). -/
theorem toNat_zextAddr_add_zextByte (nnn : BitVec 12) (v : Byte) :
    (zextAddr nnn + zextByte v).toNat = nnn.toNat + v.toNat := by
  have hn := nnn.isLt
  have hv := v.isLt
  simp only [zextByte, BitVec.toNat_add, toNat_zextAddr, BitVec.toNat_setWidth]
  omega

/-- Settles O17: the word is the encoding of BNNN, only pc is set, and the sum does not wrap. -/
theorem jumpWithOffsetAddsVZero : Obligations.JumpWithOffsetAddsVZero := fun nnn s =>
  ⟨decodeWord_encode (.jpV0 nnn), s.setPc (zextAddr nnn + zextByte (s.readV 0)), rfl, rfl,
    toNat_zextAddr_add_zextByte nnn (s.readV 0)⟩

/-! ### Skips -/

/-- A skip is pc's alone, whatever proposition its Boolean decides (41_flow.md R143..R146). -/
theorem skipIf_eq_of_iff (s : State) {c : Bool} {p : Prop} [Decidable p] (h : c = true ↔ p) :
    s.skipIf c = { s with pc := if p then s.pc + 2 else s.pc } := by
  unfold State.skipIf
  by_cases hp : p
  · rw [if_pos (h.2 hp), if_pos hp]
    rfl
  · rw [if_neg (mt h.1 hp), if_neg hp]

/-- Settles O15: each word is its instruction's encoding, and `==`, `!=` decide equality and difference. -/
theorem skipsOnImmediateAdvancePc : Obligations.SkipsOnImmediateAdvancePc := fun x nn s =>
  ⟨decodeWord_encode (.seImm x nn), decodeWord_encode (.sneImm x nn),
    congrArg Host.Outcome.next (skipIf_eq_of_iff s beq_iff_eq),
    congrArg Host.Outcome.next (skipIf_eq_of_iff s bne_iff_ne)⟩

theorem exec_seReg (x y : Reg) (s : State) :
    exec (.seReg x y) s = .next { s with pc := if s.V[x] = s.V[y] then s.pc + 2 else s.pc } :=
  congrArg Host.Outcome.next (skipIf_eq_of_iff s beq_iff_eq)

theorem exec_sneReg (x y : Reg) (s : State) :
    exec (.sneReg x y) s = .next { s with pc := if s.V[x] ≠ s.V[y] then s.pc + 2 else s.pc } :=
  congrArg Host.Outcome.next (skipIf_eq_of_iff s bne_iff_ne)

/-- Settles O16: with X = Y the condition is `VX = VX`. -/
theorem skipsOnRegistersAdvancePc : Obligations.SkipsOnRegistersAdvancePc := by
  refine ⟨fun x y s => ⟨exec_seReg x y s, exec_sneReg x y s⟩, fun x s => ⟨?_, ?_⟩⟩
  · rw [exec_seReg, if_pos rfl]
  · rw [exec_sneReg, if_neg (not_not_intro rfl)]

/-! ### One call, one return -/

/-- Settles O18: the one entry written is `stack[sp]`. -/
theorem callPushesTheAdvancedPc : Obligations.CallPushesTheAdvancedPc := by
  intro nnn s h
  refine ⟨(s.push s.pc h).setPc (zextAddr nnn), exec_call_of_lt nnn h, ?_, rfl, ?_, fun k hk => ?_⟩
  · rw [← zextAddr_eq_ofNat]
    rfl
  · exact Vector.getElem_set_self h
  · exact Vector.getElem_set_ne h k.isLt hk.symm

/-- The pop from depth `k + 1` (41_flow.md R140). -/
theorem popPc_eq {s : State} {k : Fin 16} (h : s.sp.val = k.val + 1) :
    s.popPc = { s with pc := s.stack[k], sp := k.castSucc } := by
  have hk : s.sp.val - 1 = k.val := by omega
  simp [State.popPc, hk, Fin.ext_iff]

/-- Settles O19: the depth is not 0, and one less is `k`. -/
theorem returnPopsPc : Obligations.ReturnPopsPc := by
  intro s k h
  rw [exec_ret_of_ne_zero (by omega), popPc_eq h]

/-- Settles O20: the return pops what the call pushed, wherever its own fetch put pc. -/
theorem callThenReturnRestoresPc : Obligations.CallThenReturnRestoresPc := by
  intro nnn s p h
  have hret : ((s.push s.pc h).setPc p).sp.val ≠ 0 := Nat.succ_ne_zero _
  exact ⟨_, _, exec_call_of_lt nnn h, exec_ret_of_ne_zero hret, popPc_push s s.pc h p⟩

end Sys2Proof.Machine
end

section
/-!
PROOFS of the statements about load and ALU (42_alu.md). `exec_alu_cases` says once what the twelve instructions are: a
result to VX, a result and then a flag to VF, or a masked draw, computed from VX and VY alone. The arithmetic of each
result and flag is a lemma about bytes.
-/

namespace Sys2Proof.Machine

open Sys2Proof.Claims

/-! ### The two writes of a flag instruction -/

theorem State.writeV_V_same (s : State) (x : Reg) (v : Byte) : (s.writeV x v).V[x] = v :=
  s.readV_writeV_same x v

theorem writeResultThenFlag_V (x k : Reg) (result flag : Byte) (s : State) :
    (writeResultThenFlag x result flag s).V[k] = if k = Reg.VF then flag else if k = x then result else s.V[k] :=
  readV_writeResultThenFlag s x k result flag

/-- VF holds the flag, also when X = 15 (42_alu.md R173). -/
theorem writeResultThenFlag_V_VF (x : Reg) (result flag : Byte) (s : State) :
    (writeResultThenFlag x result flag s).V[Reg.VF] = flag := by
  rw [writeResultThenFlag_V, if_pos rfl]

theorem writeResultThenFlag_V_of_ne {x : Reg} (hx : x ≠ Reg.VF) (result flag : Byte) (s : State) :
    (writeResultThenFlag x result flag s).V[x] = result := by
  rw [writeResultThenFlag_V, if_neg hx, if_pos rfl]

theorem registersKeptBut_writeResultThenFlag (x : Reg) (result flag : Byte) (s : State) :
    registersKeptBut x s (writeResultThenFlag x result flag s) := by
  intro k hkx hkf
  rw [writeResultThenFlag_V, if_neg hkf, if_neg hkx]

/-! ### Results and flags as numbers -/

theorem add_eq_ofNat_toNat_add (a b : Byte) : a + b = BitVec.ofNat 8 ((a.toNat + b.toNat) % 256) := by
  apply BitVec.eq_of_toNat_eq
  simp

theorem toNat_sub_byte (a b : Byte) : (a - b).toNat = (a.toNat + 256 - b.toNat) % 256 := by
  have hb := b.isLt
  rw [BitVec.toNat_sub]
  omega

theorem toNat_shiftRight_one (a : Byte) : (a >>> 1).toNat = a.toNat / 2 := by
  rw [BitVec.toNat_ushiftRight, Nat.shiftRight_one]

theorem toNat_shiftLeft_one (a : Byte) : (a <<< 1).toNat = a.toNat * 2 % 256 := by
  rw [BitVec.toNat_shiftLeft, Nat.shiftLeft_eq]

theorem flagByte_decide (p : Prop) [Decidable p] : flagByte (decide p) = if p then 1 else 0 := by
  simp only [flagByte, decide_eq_true_eq]

theorem toNat_flagByte (b : Bool) : (flagByte b).toNat = b.toNat := by
  cases b <;> rfl

theorem toNat_shiftedOutRight (a : Byte) : (shiftedOutRight a).toNat = a.toNat % 2 := by
  rw [shiftedOutRight, toNat_flagByte, BitVec.getLsbD, Nat.toNat_testBit, pow_zero, Nat.div_one]

/-- Bit 7 of a byte is its quotient by 128. -/
theorem toNat_shiftedOutLeft (a : Byte) : (shiftedOutLeft a).toNat = a.toNat / 128 := by
  have ha := a.isLt
  rw [shiftedOutLeft, toNat_flagByte, BitVec.getLsbD, Nat.toNat_testBit]
  omega

/-- No bit of `r AND NN` is outside NN. -/
theorem and_and_not_eq_zero (r nn : Byte) : r &&& nn &&& ~~~nn = 0 := by
  rw [BitVec.and_assoc, BitVec.and_not_self]
  exact BitVec.and_zero

/-! ### The twelve instructions -/

/-- The shapes of the instructions of 42_alu.md: the five with a flag, the six without one, and CXNN (R160). What is
written is a function of VX and VY alone, the same one from every state. -/
theorem exec_alu_cases {i : Instr} {x y : Reg} (h : aluOperands i = some (x, y)) :
    (flagAlu i = some x ∧ ∃ result flag : Byte → Byte → Byte, ∀ s : State, exec i s =
      .next (writeResultThenFlag x (result s.V[x] s.V[y]) (flag s.V[x] s.V[y]) s)) ∨
    (flagAlu i = none ∧ ∃ result : Byte → Byte → Byte, ∀ s : State, exec i s =
      .next (s.writeV x (result s.V[x] s.V[y]))) ∨
    ∃ nn, i = .rnd x nn := by
  cases i <;> cases h
  case addReg => exact .inl ⟨rfl, (· + ·), carryFlag, fun _ => rfl⟩
  case sub => exact .inl ⟨rfl, (· - ·), noBorrowFlag, fun _ => rfl⟩
  case subn => exact .inl ⟨rfl, fun a b => b - a, fun a b => noBorrowFlag b a, fun _ => rfl⟩
  case shr => exact .inl ⟨rfl, fun a _ => a >>> 1, fun a _ => shiftedOutRight a, fun _ => rfl⟩
  case shl => exact .inl ⟨rfl, fun a _ => a <<< 1, fun a _ => shiftedOutLeft a, fun _ => rfl⟩
  case ldImm nn => exact .inr (.inl ⟨rfl, fun _ _ => nn, fun _ => rfl⟩)
  case addImm nn => exact .inr (.inl ⟨rfl, fun a _ => a + nn, fun _ => rfl⟩)
  case ldReg => exact .inr (.inl ⟨rfl, fun _ b => b, fun _ => rfl⟩)
  case orReg => exact .inr (.inl ⟨rfl, (· ||| ·), fun _ => rfl⟩)
  case andReg => exact .inr (.inl ⟨rfl, (· &&& ·), fun _ => rfl⟩)
  case xorReg => exact .inr (.inl ⟨rfl, (· ^^^ ·), fun _ => rfl⟩)
  case rnd nn => exact .inr (.inr ⟨nn, rfl⟩)

/-- Settles O28, shape by shape: two states that agree on VX, VY and the draw are written the same bytes. -/
theorem aluInstructionsReadAndWriteOnlyTheirOperands :
    Obligations.AluInstructionsReadAndWriteOnlyTheirOperands := by
  intro i x y s h
  obtain ⟨hflag, result, flag, hexec⟩ | ⟨hflag, result, hexec⟩ | ⟨nn, rfl⟩ := exec_alu_cases h
  · refine ⟨_, hexec s, rfl, fun k hkx hk => ?_, fun s' t' h' hx hy _ => ?_⟩
    · have hkf : k ≠ Reg.VF := hk.resolve_right (by simp [hflag])
      exact registersKeptBut_writeResultThenFlag x _ _ s k hkx hkf
    · rw [hexec, hx, hy] at h'
      cases h'
      exact ⟨by simp only [writeResultThenFlag_V, if_true], fun _ => by simp only [writeResultThenFlag_V_VF]⟩
  · refine ⟨_, hexec s, rfl, fun k hkx _ => s.writeV_V_other hkx _, fun s' t' h' hx hy _ => ?_⟩
    rw [hexec, hx, hy] at h'
    cases h'
    exact ⟨by simp only [State.writeV_V_same], by simp [hflag]⟩
  · refine ⟨_, rfl, rfl, fun k hkx _ => s.writeV_V_other hkx _, fun s' t' h' _ _ hdraws => ?_⟩
    cases h'
    rw [hdraws]
    exact ⟨(s'.writeV_V_same x _).trans (s.writeV_V_same x _).symm, nofun⟩

/-! ### The statements, instruction by instruction -/

/-- Settles O22: each word is its instruction's encoding, and the byte sum is the sum mod 256. -/
theorem loadsAndImmediateAddWriteVX : Obligations.LoadsAndImmediateAddWriteVX := fun x y nn s =>
  ⟨decodeWord_encode (.ldImm x nn), decodeWord_encode (.addImm x nn), decodeWord_encode (.ldReg x y), rfl,
    congrArg (fun v => Host.Outcome.next (s.writeV x v)) (add_eq_ofNat_toNat_add s.V[x] nn), rfl⟩

/-- Settles O23: each word is its instruction's encoding, and the three operations act on each bit. -/
theorem logicInstructionsCombineBits : Obligations.LogicInstructionsCombineBits := fun x y s =>
  ⟨decodeWord_encode (.orReg x y), decodeWord_encode (.andReg x y), decodeWord_encode (.xorReg x y),
    s.V[x] ||| s.V[y], s.V[x] &&& s.V[y], s.V[x] ^^^ s.V[y], rfl, rfl, rfl,
    fun _ => ⟨BitVec.getLsbD_or, BitVec.getLsbD_and, BitVec.getLsbD_xor⟩⟩

/-- Settles O24: the flag is the carry of the exact sum. -/
theorem addWritesSumAndCarry : Obligations.AddWritesSumAndCarry := by
  intro x y s
  refine ⟨_, rfl, rfl, registersKeptBut_writeResultThenFlag _ _ _ _, ?_, fun hx => ?_⟩
  · exact (writeResultThenFlag_V_VF ..).trans (flagByte_decide _)
  · rw [writeResultThenFlag_V_of_ne hx]
    exact BitVec.toNat_add ..

/-- Settles O25: 8XY7 is 8XY5's difference and flag with the operands exchanged. -/
theorem subtractionsWriteDifferenceAndNoBorrow : Obligations.SubtractionsWriteDifferenceAndNoBorrow := by
  intro x y s
  refine ⟨_, _, rfl, rfl, rfl, rfl, registersKeptBut_writeResultThenFlag _ _ _ _,
    registersKeptBut_writeResultThenFlag _ _ _ _, ?_, ?_, fun hx => ⟨?_, ?_⟩⟩
  · exact (writeResultThenFlag_V_VF ..).trans (flagByte_decide _)
  · exact (writeResultThenFlag_V_VF ..).trans (flagByte_decide _)
  · rw [writeResultThenFlag_V_of_ne hx]
    exact toNat_sub_byte ..
  · rw [writeResultThenFlag_V_of_ne hx]
    exact toNat_sub_byte ..

/-- Settles O26: the bit shifted out is the remainder, or the quotient, of VX. -/
theorem shiftsWriteResultAndBitShiftedOut : Obligations.ShiftsWriteResultAndBitShiftedOut := by
  intro x y s
  refine ⟨_, _, rfl, rfl, rfl, rfl, registersKeptBut_writeResultThenFlag _ _ _ _,
    registersKeptBut_writeResultThenFlag _ _ _ _, ?_, ?_, fun hx => ⟨?_, ?_⟩⟩
  · rw [writeResultThenFlag_V_VF]
    exact toNat_shiftedOutRight _
  · rw [writeResultThenFlag_V_VF]
    exact toNat_shiftedOutLeft _
  · rw [writeResultThenFlag_V_of_ne hx]
    exact toNat_shiftRight_one _
  · rw [writeResultThenFlag_V_of_ne hx]
    exact toNat_shiftLeft_one _

/-- Settles O27: VX holds the masked draw, whatever byte is drawn. -/
theorem randomIsADrawMaskedByTheImmediate : Obligations.RandomIsADrawMaskedByTheImmediate := by
  intro x nn s
  refine ⟨rfl, fun r => ?_⟩
  have hx : (rndWith r x nn s).V[x] = r &&& nn := s.writeV_V_same x _
  rw [hx, and_and_not_eq_zero]

end Sys2Proof.Machine
end

section
/-!
PROOFS of the statements about the index register and the transfers between registers and memory (43_index_memory.md). A
transfer in range is its copy: the bytes and registers of its answer are read off the lemma that says what the copy
does.
-/

namespace Sys2Proof.Machine

open Sys2Proof.Claims

/-! ### FX55 and FX65 -/

/-- FX65 in range copies to V0..VX (43_index_memory.md R195). -/
theorem exec_ldLoad_of_inRange {x : Reg} {s : State} (h : s.I.toNat + x.val ≤ 0xFFF) :
    exec (.ldLoad x) s = .next (s.loadRegs x) :=
  guardAccess_of_inRange _ _ (.inr (by omega))

/-- After FX55 a byte outside `I .. I + X` is as before (43_index_memory.md R194). -/
theorem read_storeRegs_outside (s : State) (x : Reg) {a : Nat} (ha : a < s.I.toNat ∨ s.I.toNat + x.val < a) :
    (s.storeRegs x).mem.read a = s.mem.read a := by
  rw [read_storeRegs, dif_neg (by omega)]

theorem onlyRegisters_loadRegs (s : State) (x : Reg) : onlyRegisters s (s.loadRegs x) := by
  obtain ⟨V, hV⟩ := loadRegs_frame s x
  rw [hV]
  rfl

/-- After FX65 `V[k]` is the byte at `I + k`, for `k` at most X (43_index_memory.md R195). -/
theorem loadRegs_V_of_le (s : State) {x k : Reg} (hk : k ≤ x) :
    (s.loadRegs x).V[k] = s.mem.read (s.I.toNat + k.val) :=
  (readV_loadRegs s x k).trans (if_pos hk)

/-- FX65 keeps the registers above VX (43_index_memory.md R195; the spec's decision D6; log 12). -/
theorem loadRegs_V_of_lt (s : State) {x k : Reg} (hk : x < k) : (s.loadRegs x).V[k] = s.V[k] :=
  (readV_loadRegs s x k).trans (if_neg hk.not_ge)

/-- Settles O32: FX55 in range is its copy, which writes memory only. -/
theorem registersAreStoredInclusive : Obligations.RegistersAreStoredInclusive := fun x s hI =>
  ⟨s.storeRegs x, exec_ldStore_of_inRange hI, rfl, fun _ hk => read_storeRegs_of_le s hk,
    fun _ ha => read_storeRegs_outside s x ha⟩

/-- Settles O33: FX65 in range is its copy, which writes registers only. -/
theorem registersAreLoadedInclusive : Obligations.RegistersAreLoadedInclusive := fun x s hI =>
  ⟨s.loadRegs x, exec_ldLoad_of_inRange hI, onlyRegisters_loadRegs s x, fun _ hk => loadRegs_V_of_le s hk,
    fun _ hk => loadRegs_V_of_lt s hk⟩

/-- Settles O34: the store keeps I, so the load is in range too and reads each byte where the store put it. -/
theorem storeThenLoadRestoresRegisters : Obligations.StoreThenLoadRestoresRegisters := by
  intro x s V hI
  refine ⟨s.storeRegs x, _, exec_ldStore_of_inRange hI, exec_ldLoad_of_inRange hI,
    fun k => ⟨fun hk => ?_, fun hk => ?_⟩⟩
  · rw [loadRegs_V_of_le _ hk]
    exact read_storeRegs_of_le s hk
  · exact loadRegs_V_of_lt _ hk

/-! ### FX33 -/

/-- FX33 in range stores the three digits of VX (43_index_memory.md R193). -/
theorem exec_ldB_of_inRange (x : Reg) {s : State} (h : s.I.toNat + 2 ≤ 0xFFF) :
    exec (.ldB x) s = .next (s.setMem (s.mem.writeBytes s.I.toNat (decimalDigits s.V[x]))) :=
  guardAccess_of_inRange _ _ (.inr (by omega))

/-- The bytes of `decimalDigits` are the digits as numbers: none exceeds 9, so none is reduced mod 256. -/
theorem map_toNat_decimalDigits (v : Byte) :
    (decimalDigits v).map BitVec.toNat = [v.toNat / 100, v.toNat / 10 % 10, v.toNat % 10] := by
  have hv := v.isLt
  simp only [decimalDigits, List.map_cons, List.map_nil, BitVec.toNat_ofNat, List.cons.injEq, and_true]
  omega

/-- Where the three digits are stored, the byte at `a + k` is digit `k`. -/
theorem toNat_read_writeBytes_decimalDigits (m : Memory) (a : Nat) (v : Byte) {k : Nat} (hk : k < 3) :
    ((m.writeBytes a (decimalDigits v)).read (a + k)).toNat =
      [v.toNat / 100, v.toNat / 10 % 10, v.toNat % 10][k] := by
  have hlen : k < (decimalDigits v).length := hk
  rw [Memory.read_writeBytes_inside m a _ hlen]
  simp only [← map_toNat_decimalDigits, List.getElem_map]

/-- Settles O31: each of the three bytes is a digit, and the addresses outside them are not written. -/
theorem decimalDigitsAreStored : Obligations.DecimalDigitsAreStored := fun x s hI =>
  have digit {k : Nat} (hk : k < 3) := toNat_read_writeBytes_decimalDigits s.mem s.I.toNat s.V[x] hk
  ⟨_, exec_ldB_of_inRange x hI, rfl,
    digit (k := 0) (by decide), digit (k := 1) (by decide), digit (k := 2) (by decide),
    fun _ ha => Memory.read_writeBytes_outside s.mem s.I.toNat (decimalDigits s.V[x]) ha⟩

/-! ### ANNN, FX29 and FX1E -/

/-- The address of a glyph as a number: the product does not wrap (43_index_memory.md R192). -/
theorem glyphAddress_eq_ofNat (v : Byte) : glyphAddress v = BitVec.ofNat 16 (5 * (v.toNat % 16)) := by
  apply BitVec.eq_of_toNat_eq
  simp [glyphAddress, BitVec.toNat_mul, BitVec.extractLsb'_toNat]

/-- The sum of a word and a zero-extended byte is the sum mod 65536 (43_index_memory.md R191; the spec's decision D3;
log 14). -/
theorem add_zextByte_eq_ofNat (w : Word) (v : Byte) :
    w + zextByte v = BitVec.ofNat 16 ((w.toNat + v.toNat) % 65536) := by
  apply BitVec.eq_of_toNat_eq
  simp [zextByte]

/-- Settles O29: each word is its instruction's encoding, and the new I is the number the statement names. -/
theorem indexLoadsSetI : Obligations.IndexLoadsSetI := fun nnn x s =>
  ⟨decodeWord_encode (.ldI nnn), decodeWord_encode (.ldF x),
    congrArg (fun v => Host.Outcome.next (s.setI v)) (zextAddr_eq_ofNat nnn),
    congrArg (fun v => Host.Outcome.next (s.setI v)) (glyphAddress_eq_ofNat s.V[x])⟩

/-- Settles O30: only I is set, to the sum mod 65536. -/
theorem addToIndexIsSixteenBit : Obligations.AddToIndexIsSixteenBit := fun x s =>
  congrArg (fun v => Host.Outcome.next (s.setI v)) (add_zextByte_eq_ofNat s.I s.V[x])

end Sys2Proof.Machine
end

section
/-!
PROOFS of the statements about the display (44_display.md). A draw in range is `drawEffect`: its pixels and its flag are
each said once, in terms of the sprite mask `drawMask`, and the statements compare masks.
-/

namespace Sys2Proof.Machine

/-! ### A draw in terms of its mask -/

/-- The mask S of DXYN executed in `s` (44_display.md R213): `spriteMask` at the corner (VX, VY), from address I. -/
def drawMask (x y : Reg) (n : Fin 16) (s : State) (py : Fin 32) (px : Fin 64) : Bool :=
  spriteMask s.mem s.I (s.V[x]).toNat (s.V[y]).toNat n.val py px

/-- DXYN in range (44_display.md R212; the spec's decision D23; log 23). -/
theorem exec_drw_of_inRange (x y : Reg) {n : Fin 16} {s : State} (h : n = 0 ∨ s.I.toNat + n.val - 1 ≤ 0xFFF) :
    exec (.drw x y n) s = .next (drawEffect x y n s) :=
  guardAccess_of_inRange _ _ (h.imp Fin.val_eq_zero_iff.2 (by omega))

theorem drawEffect_pixel (x y : Reg) (n : Fin 16) (s : State) (py : Fin 32) (px : Fin 64) :
    (drawEffect x y n s).fb.pixel py px = (s.fb.pixel py px ^^ drawMask x y n s py px) :=
  pixel_drawEffect x y n s py px

/-- A draw writes no register but VF (44_display.md R212). -/
theorem drawEffect_V_of_ne (x y : Reg) (n : Fin 16) (s : State) {k : Reg} (hk : k ≠ Reg.VF) :
    (drawEffect x y n s).V[k] = s.V[k] :=
  (readV_drawEffect x y n s k).trans (if_neg hk)

theorem drawEffect_V_VF (x y : Reg) (n : Fin 16) (s : State) :
    (drawEffect x y n s).V[Reg.VF] =
      flagByte (drawSprite s.mem s.I (s.V[x]).toNat (s.V[y]).toNat n.val s.fb).collision :=
  (readV_drawEffect x y n s Reg.VF).trans (if_pos rfl)

theorem flagByte_eq_one_iff (b : Bool) : flagByte b = 1 ↔ b = true := by
  cases b <;> decide

theorem flagByte_eq_zero_iff (b : Bool) : flagByte b = 0 ↔ b ≠ true := by
  cases b <;> decide

/-- VF is 1 exactly when a pixel of the mask was on (44_display.md R212). -/
theorem drawEffect_V_VF_eq_one_iff (x y : Reg) (n : Fin 16) (s : State) :
    (drawEffect x y n s).V[Reg.VF] = 1 ↔
      ∃ (py : Fin 32) (px : Fin 64), s.fb.pixel py px = true ∧ drawMask x y n s py px = true := by
  rw [drawEffect_V_VF, flagByte_eq_one_iff]
  exact collision_drawSprite ..

/-- VF is 0 exactly when no pixel of the mask was on (44_display.md R212). -/
theorem drawEffect_V_VF_eq_zero_iff (x y : Reg) (n : Fin 16) (s : State) :
    (drawEffect x y n s).V[Reg.VF] = 0 ↔
      ∀ (py : Fin 32) (px : Fin 64), s.fb.pixel py px = true → drawMask x y n s py px = false := by
  rw [drawEffect_V_VF, flagByte_eq_zero_iff, Ne, collision_drawSprite]
  simp only [drawMask, not_exists, not_and, Bool.not_eq_true]

/-! ### The statements -/

/-- Settles O36: only the framebuffer is replaced, by the one with every pixel 0. -/
theorem clearZeroesEveryPixel : Obligations.ClearZeroesEveryPixel :=
  fun s => ⟨s.setFb Framebuffer.clear, rfl, rfl, pixel_clear⟩

/-- Settles O37: the answer is the draw's effect, and its pixels and VF are read off the mask. -/
theorem drawXorsTheClippedSprite : Obligations.DrawXorsTheClippedSprite := fun x y n s hI =>
  ⟨drawEffect x y n s, exec_drw_of_inRange x y hI, drawEffect_frame x y n s, drawEffect_pixel x y n s,
    fun _ hk => drawEffect_V_of_ne x y n s hk, (drawEffect_V_VF_eq_one_iff x y n s).2,
    (drawEffect_V_VF_eq_zero_iff x y n s).2⟩

/-- A sprite of no rows, or with its corner outside the screen, has no visible pixel: coordinates are not reduced
(44_display.md R212). -/
theorem spriteMask_of_outside (m : Memory) (i : Word) {vx vy n : Nat} (h : n = 0 ∨ 64 ≤ vx ∨ 32 ≤ vy)
    (py : Fin 32) (px : Fin 64) : spriteMask m i vx vy n py px = false := by
  have hout : ¬ (vx ≤ px.val ∧ px.val < vx + 8 ∧ vy ≤ py.val ∧ py.val < vy + n) := by omega
  rw [spriteMask, decide_eq_false hout, Bool.false_and]

/-- A draw with an empty mask clears VF, sets redraw and does nothing else (44_display.md R212). -/
theorem drawEffect_of_drawMask_false {x y : Reg} {n : Fin 16} {s : State}
    (h : ∀ py px, drawMask x y n s py px = false) :
    drawEffect x y n s = { s with V := s.V.set 15 0, redraw := true } := by
  have hfb : (drawEffect x y n s).fb = s.fb := framebuffer_ext fun py px => by
    rw [drawEffect_pixel, h, Bool.xor_false]
  have hV : (drawEffect x y n s).V = s.V.set 15 0 := by
    have hVF := (drawEffect_V_VF_eq_zero_iff x y n s).2 fun py px _ => h py px
    rw [drawEffect_V_VF] at hVF
    exact congrArg (s.V.set 15) hVF
  rw [drawEffect_frame, hfb, hV]

/-- Settles O38: the mask is empty. -/
theorem drawOutsideTheScreenWritesNoPixel : Obligations.DrawOutsideTheScreenWritesNoPixel := by
  intro x y n s hI hout
  have hmask := spriteMask_of_outside s.mem s.I (hout.imp_left Fin.val_eq_zero_iff.2)
  rw [exec_drw_of_inRange x y hI, drawEffect_of_drawMask_false hmask]

/-- A draw with both coordinates outside VF leaves its own mask for the next one (44_display.md R214). -/
theorem drawMask_advance_drawEffect {x y : Reg} (hx : x ≠ Reg.VF) (hy : y ≠ Reg.VF) (n : Fin 16) (s : State) :
    drawMask x y n (drawEffect x y n s).advance = drawMask x y n s := by
  funext py px
  rw [drawMask, State.advance_V, drawEffect_V_of_ne x y n s hx, drawEffect_V_of_ne x y n s hy]
  rfl

/-- Settles O39: both draws have the same mask, which XORed twice cancels; the second collides on a pixel of the mask
that is on after the first, so was off before it. -/
theorem drawingTwiceRestoresTheFramebuffer : Obligations.DrawingTwiceRestoresTheFramebuffer := by
  intro x y n s hx hy hI
  have hmask := drawMask_advance_drawEffect hx hy n s
  refine ⟨drawEffect x y n s, _, exec_drw_of_inRange x y hI, exec_drw_of_inRange x y hI,
    framebuffer_ext fun py px => ?_, ?_⟩
  · rw [drawEffect_pixel, hmask, State.advance_fb, drawEffect_pixel, Bool.xor_assoc, Bool.xor_self, Bool.xor_false]
  · rw [drawEffect_V_VF_eq_one_iff, hmask]
    refine exists_congr fun py => exists_congr fun px => ?_
    rw [State.advance_fb, drawEffect_pixel]
    cases s.fb.pixel py px <;> cases drawMask x y n s py px <;> decide

/-- Settles O40: 00E0 keeps what the mask is read from, and on a clear screen the draw meets no pixel. -/
theorem clearThenDrawShowsOnlyTheSprite : Obligations.ClearThenDrawShowsOnlyTheSprite := by
  intro x y n s hI
  have hclear (py : Fin 32) (px : Fin 64) : (s.setFb Framebuffer.clear).advance.fb.pixel py px = false :=
    pixel_clear py px
  refine ⟨s.setFb Framebuffer.clear, _, rfl, exec_drw_of_inRange x y hI, ?_, fun py px => ?_⟩
  · refine (drawEffect_V_VF_eq_zero_iff ..).2 fun py px hon => ?_
    rw [hclear] at hon
    cases hon
  · rw [drawEffect_pixel, hclear, Bool.false_xor]
    rfl

end Sys2Proof.Machine
end

section
/-!
PROOFS of the statements about the keypad and timer instructions (45_keypad_timer_instr.md). What one tick does is said
once, and n ticks follow by induction; the key wait is the suspended machine until a slot goes to pressed.
-/

namespace Sys2Proof.Machine

open Sys2Proof.Claims

/-! ### Ticks -/

theorem toNat_decay (v : Byte) : (decay v).toNat = v.toNat - 1 := by
  unfold decay
  split
  · next hv => rw [hv]; rfl
  · next hv => bv_omega

/-- A tick with its frame (60_exceptions.md R262, R263). -/
theorem tickTimers_eq (s : State) :
    tickTimers s = { s with
      DT := decay s.DT
      ST := decay s.ST
      events := if s.ST.toNat = 1 then .toneStart :: s.events else s.events } := by
  have hone : s.ST = 1 ↔ s.ST.toNat = 1 := BitVec.toNat_eq
  simp only [tickTimers, hone]
  split <;> rfl

theorem toNat_tickTimers_DT (s : State) : (tickTimers s).DT.toNat = s.DT.toNat - 1 := by
  rw [tickTimers_eq, toNat_decay]

theorem toNat_tickTimers_ST (s : State) : (tickTimers s).ST.toNat = s.ST.toNat - 1 := by
  rw [tickTimers_eq, toNat_decay]

theorem tickTimers_events (s : State) :
    (tickTimers s).events = if s.ST.toNat = 1 then .toneStart :: s.events else s.events := by
  rw [tickTimers_eq]

theorem toNat_ticks_DT (n : Nat) (s : State) : (ticks n s).DT.toNat = s.DT.toNat - n := by
  induction n generalizing s with
  | zero => rfl
  | succ n ih => rw [ticks, ih, toNat_tickTimers_DT, Nat.sub_sub, Nat.add_comm]

/-- n ticks emit one `tone_start` if ST comes to its end in them, else none: the tick from 1 emits it and leaves 0, which
emits no more (60_exceptions.md R263). -/
theorem ticks_events (n : Nat) (s : State) :
    (ticks n s).events =
      if 1 ≤ s.ST.toNat ∧ s.ST.toNat ≤ n then .toneStart :: s.events else s.events := by
  induction n generalizing s with
  | zero => exact (if_neg (by omega)).symm
  | succ n ih =>
    rw [ticks, ih, toNat_tickTimers_ST, tickTimers_events]
    by_cases hone : s.ST.toNat = 1
    · rw [if_neg (by omega), if_pos hone, if_pos (by omega)]
    · have hlater : 1 ≤ s.ST.toNat - 1 ∧ s.ST.toNat - 1 ≤ n ↔ 1 ≤ s.ST.toNat ∧ s.ST.toNat ≤ n + 1 := by omega
      simp only [if_neg hone, hlater]

/-- Settles O43: FX15 puts VX into DT, n ticks take n away, and FX07 reads what is left. -/
theorem delayTimerReadsWhatTicksLeave : Obligations.DelayTimerReadsWhatTicksLeave := by
  intro x y n s
  refine ⟨s.setDT s.V[x], _, rfl, rfl, ?_⟩
  rw [State.writeV_V_same, State.advance_DT, toNat_ticks_DT, State.setDT_DT]

/-- Settles O47: FX18 puts VX into ST and keeps the events, so the ticks' one event is the only new one. -/
theorem soundTimerSignalsOnceAtItsEnd : Obligations.SoundTimerSignalsOnceAtItsEnd := fun x n s =>
  ⟨s.setST s.V[x], rfl, ticks_events n (s.setST s.V[x])⟩

/-- Settles O42: each is one named update. -/
theorem timerInstructionsMoveOneByte : Obligations.TimerInstructionsMoveOneByte := fun _ _ => ⟨rfl, rfl, rfl⟩

/-! ### The key wait -/

/-- FX0A (45_keypad_timer_instr.md R233). -/
theorem exec_ldK (x : Reg) (s : State) : exec (.ldK x) s = .next (s.startWait x) := rfl

/-- Settles O44: it starts the wait. -/
theorem keyWaitInstructionOnlyStartsTheWait : Obligations.KeyWaitInstructionOnlyStartsTheWait := exec_ldK

/-- Every slot is an index `set_key` accepts (60_exceptions.md R266). -/
theorem setKey_val (k : Fin 16) (p : Bool) (s : State) : setKey k.val p s = some (setSlot k p s) :=
  dif_pos (by omega)

/-- The transition to pressed that ends a wait (60_exceptions.md R266; the spec's decision D12; log 18). -/
theorem setSlot_of_press {k : Fin 16} {s : State} (hm : s.mode = .awaitingKey) (hk : s.key[k] = false) :
    setSlot k true s = ((s.writeKey k true).writeV s.waitReg (BitVec.ofNat 8 k.val)).resume :=
  if_pos ⟨hm, rfl, hk⟩

/-- Settles O45: FX0A suspends the machine, so the steps leave its state, and the press resumes RUNNING, the mode the
wait began in. -/
theorem keyPressEndsTheWait : Obligations.KeyPressEndsTheWait := by
  intro x k n s hm hk
  have hwait : (s.startWait x).mode = .awaitingKey := rfl
  refine ⟨s.startWait x, exec_ldK x s, run_of_step_self (step_of_awaitingKey hwait) n, ?_⟩
  rw [setKey_val, setSlot_of_press hwait hk, hm]
  rfl

/-! ### The key skips -/

/-- A key skip whose operand names slot `k` (45_keypad_timer_instr.md R230, R231). -/
theorem keySkip_of_toNat_eq (i : Instr) {vx : Byte} {k : Fin 16} (h : vx.toNat = k.val) (b : Bool) (s : State) :
    keySkip i vx b s = .next { s with pc := if s.key[k] = b then s.pc + 2 else s.pc } := by
  have hslot : (s.key[k.val] == b) = true ↔ s.key[k] = b := beq_iff_eq
  rw [keySkip_of_lt i b s (h ▸ k.isLt)]
  simp only [h, skipIf_eq_of_iff s hslot]

/-- Settles O41: both are the key skip on slot `k`, one for pressed and one for not pressed. -/
theorem keySkipsTestOneSlot : Obligations.KeySkipsTestOneSlot := fun x _ s h =>
  ⟨keySkip_of_toNat_eq (.skp x) h true s, keySkip_of_toNat_eq (.sknp x) h false s⟩

end Sys2Proof.Machine
end

section
/-!
PROOFS of the statements about errors and host operations (60_exceptions.md). `OpEffect` says once what an operation of
the interface leaves behind; the invariant and the redraw flag are each read off its cases.
-/

namespace Sys2Proof.Machine

/-! ### What an operation can do -/

/-- A key event changes the keypad, and where it ends a wait a register and the mode too (60_exceptions.md R266). -/
theorem setSlot_frame (k : Fin 16) (p : Bool) (s : State) :
    setSlot k p s = { s with
      V := (setSlot k p s).V
      key := s.key.set k.val p
      mode := (setSlot k p s).mode } := by
  unfold setSlot
  split <;> rfl

/-- `set_key` that answers a state updated a slot (60_exceptions.md R266). -/
theorem setKey_eq_some {index : Int} {p : Bool} {s t : State} (h : setKey index p s = some t) :
    ∃ k, t = setSlot k p s := by
  unfold setKey at h
  split at h
  · cases h
    exact ⟨_, rfl⟩
  · cases h

/-- `load` that answers a state changed memory only (70_reset_and_hazards.md R305). -/
theorem loadImage_eq_some {image : List Byte} {s t : State} (h : loadImage image s = some t) :
    t = s.setMem t.mem := by
  unfold loadImage at h
  split at h <;> cases h
  rfl

/-- `OpEffect op s t`: `t` is what `op` can make of `s`. Refused calls, the snapshot and a step that failed on its fetch
are `unchanged`; a step that failed on its instruction is `failed`. -/
inductive OpEffect : Op → State → State → Prop
  | unchanged {op s} : OpEffect op s s
  | reset {s} : OpEffect .reset s (hostReset s)
  | loaded {image s} (m : Memory) (canonical : s.mem.wf = true → m.wf = true) : OpEffect (.load image) s (s.setMem m)
  | completed {s t} (completes : step s = .next t) : OpEffect .step s t
  | failed {s} (fetches : s.pc.toNat ≤ 0xFFE) : OpEffect .step s s.advance
  | ticked {s} : OpEffect .tickTimers s (tickTimers s)
  | keyed {index s} (k p) : OpEffect (.setKey index p) s (setSlot k p s)
  | taken {s} : OpEffect .takeRedrawFlag s (s.setRedraw false)

/-- The state a step leaves to a host that continues, after an error too (60_exceptions.md R254). -/
theorem stepOperation_effect (s : State) : OpEffect .step s (stepOperation s).1 := by
  match h : step s with
  | .next t =>
    rw [stepOperation_of_next h]
    exact .completed h
  | .fault f =>
    obtain ⟨-, -, e⟩ | ⟨hr, -, e⟩ := failedStepChangesOnlyPc s f h
    · rw [e]
      exact .unchanged
    · rw [e]
      exact .failed hr
  | .refused r => exact absurd h (step_ne_refused s r)

/-- Every operation leaves what its case allows. -/
theorem transition_effect (op : Op) (s : State) : OpEffect op s (transition op s).1 := by
  cases op with
  | reset => exact .reset
  | load image =>
    simp only [transition]
    split
    next t h =>
      rw [loadImage_eq_some h]
      exact .loaded t.mem fun hm => wf_loadImage hm h
    next => exact .unchanged
  | step => exact stepOperation_effect s
  | tickTimers => exact .ticked
  | setKey index p =>
    simp only [transition]
    split
    next t h =>
      obtain ⟨k, rfl⟩ := setKey_eq_some h
      exact .keyed k p
    next => exact .unchanged
  | framebufferSnapshot => exact .unchanged
  | takeRedrawFlag => exact .taken

/-! ### The invariant -/

theorem OpEffect.keeps_inv {op : Op} {s t : State} (e : OpEffect op s t) (hs : s.Inv) : t.Inv := by
  cases e with
  | unchanged => exact hs
  | reset => exact ⟨Memory.wf_nil, resetMeetsTheInvariant.pcBound, resetMeetsTheInvariant.stackBound⟩
  | loaded m canonical => exact ⟨canonical hs.memWf, hs.pcBound, hs.stackBound⟩
  | completed completes => exact everyStepKeepsTheInvariant s t hs completes
  | failed fetches => exact (hs.advance fetches).1
  | ticked =>
    rw [tickTimers_eq]
    exact ⟨hs.memWf, hs.pcBound, hs.stackBound⟩
  | keyed k p =>
    rw [setSlot_frame]
    exact ⟨hs.memWf, hs.pcBound, hs.stackBound⟩
  | taken => exact ⟨hs.memWf, hs.pcBound, hs.stackBound⟩

/-- Settles O57: each operation keeps the invariant, so a list of them does, by induction. -/
theorem everyInterleavingKeepsTheInvariant : Obligations.EveryInterleavingKeepsTheInvariant := by
  intro ops
  induction ops with
  | nil => exact fun _ hs => hs
  | cons op ops ih => exact fun s hs => ih _ ((transition_effect op s).keeps_inv hs)

/-! ### The error table -/

/-- 00EE on an empty stack (41_flow.md R140). -/
theorem exec_ret_of_eq_zero {s : State} (h : s.sp = 0) :
    exec .ret s = .fault (.stackUnderflow s.fetchAddress (encode .ret)) :=
  if_pos (congrArg Fin.val h)

/-- Settles O12: left to right, each conditional instruction fills its own row of the table and no other instruction
faults; right to left, each row's condition makes its instruction fault. -/
theorem instructionsFaultExactlyAsTabulated : Obligations.InstructionsFaultExactlyAsTabulated := by
  intro i s f
  constructor
  · intro h
    cases i
    case ret =>
      obtain ⟨hsp, hf⟩ := execRet_fault h
      exact .inl ⟨rfl, Fin.ext hsp, hf⟩
    case call nnn =>
      obtain ⟨hsp, hf⟩ := execCall_fault h
      exact .inr (.inl ⟨nnn, rfl, by omega, hf⟩)
    case drw x y n =>
      obtain ⟨⟨hn, hI⟩, hf⟩ := guardAccess_fault h
      exact .inr (.inr (.inl ⟨x, y, n, rfl, by omega, by omega, hf⟩))
    case ldB x =>
      obtain ⟨⟨-, hI⟩, hf⟩ := guardAccess_fault h
      exact .inr (.inr (.inr (.inl ⟨x, rfl, by omega, hf⟩)))
    case ldStore x =>
      obtain ⟨⟨-, hI⟩, hf⟩ := guardAccess_fault h
      exact .inr (.inr (.inr (.inr (.inl ⟨x, .inl rfl, by omega, hf⟩))))
    case ldLoad x =>
      obtain ⟨⟨-, hI⟩, hf⟩ := guardAccess_fault h
      exact .inr (.inr (.inr (.inr (.inl ⟨x, .inr rfl, by omega, hf⟩))))
    case skp x => exact .inr (.inr (.inr (.inr (.inr ⟨x, .inl rfl, keySkip_fault h⟩))))
    case sknp x => exact .inr (.inr (.inr (.inr (.inr ⟨x, .inr rfl, keySkip_fault h⟩))))
    all_goals cases h
  · rintro (⟨rfl, hsp, rfl⟩ | ⟨nnn, rfl, hsp, rfl⟩ | ⟨x, y, n, rfl, hn, hI, rfl⟩ | ⟨x, rfl, hI, rfl⟩ |
      ⟨x, rfl | rfl, hI, rfl⟩ | ⟨x, rfl | rfl, hv, rfl⟩)
    · exact exec_ret_of_eq_zero hsp
    · exact exec_call_of_not_lt nnn (by omega)
    · exact guardAccess_of_outOfRange _ _ (by omega) (by omega)
    · exact guardAccess_of_outOfRange _ _ (by omega) (by omega)
    · exact guardAccess_of_outOfRange _ _ (by omega) (by omega)
    · exact guardAccess_of_outOfRange _ _ (by omega) (by omega)
    · exact keySkip_of_ge _ _ _ hv
    · exact keySkip_of_ge _ _ _ hv

/-! ### The redraw flag -/

/-- No instruction clears redraw (10_state.md R31). -/
theorem Effect.keeps_redraw {i : Instr} {s t : State} (e : Effect i s t) (hs : s.redraw = true) : t.redraw = true := by
  cases e with
  | draw => rfl
  | skip _ c => rwa [State.skipIf_redraw]
  | registers | random | clear | jump | call | ret | index | store | wait | delay | sound => exact hs

theorem step_keeps_redraw {s t : State} (h : step s = .next t) (hs : s.redraw = true) : t.redraw = true := by
  obtain ⟨-, rfl⟩ | ⟨-, -, ⟨i, -, hexec⟩ | ⟨-, rfl⟩⟩ := step_next_cases h
  · exact hs
  · exact (exec_effect hexec).keeps_redraw hs
  · exact hs

/-- Every other operation than the two that clear redraw keeps it (60_exceptions.md R270). -/
theorem OpEffect.keeps_or_clears_redraw {op : Op} {s t : State} (e : OpEffect op s t) (hs : s.redraw = true) :
    t.redraw = true ∨ op = .takeRedrawFlag ∨ op = .reset := by
  cases e with
  | reset => exact .inr (.inr rfl)
  | taken => exact .inr (.inl rfl)
  | completed completes => exact .inl (step_keeps_redraw completes hs)
  | ticked =>
    rw [tickTimers_eq]
    exact .inl hs
  | keyed k p =>
    rw [setSlot_frame]
    exact .inl hs
  | unchanged | loaded | failed => exact .inl hs

/-- Settles O51: an operation that leaves redraw clear has not kept it, so it is one of the two that clear it. -/
theorem takeRedrawFlagQueriesAndClears : Obligations.TakeRedrawFlagQueriesAndClears := by
  refine ⟨fun s => ⟨rfl, rfl⟩, fun op s hs hclear => ?_⟩
  refine ((transition_effect op s).keeps_or_clears_redraw hs).resolve_left fun hset => ?_
  rw [hclear] at hset
  cases hset

/-! ### Ticks and key events -/

/-- Settles O46: a tick with its frame, each counter as a number. -/
theorem tickDecaysTimersAndSignalsTone : Obligations.TickDecaysTimersAndSignalsTone := fun s =>
  ⟨tickTimers s, rfl, by rw [tickTimers_eq], toNat_tickTimers_DT s, toNat_tickTimers_ST s, tickTimers_events s⟩

/-- KeyIndexRange (60_exceptions.md R251). -/
theorem setKey_of_outOfRange {index : Int} (h : index < 0 ∨ 15 < index) (p : Bool) (s : State) :
    setKey index p s = none :=
  dif_neg (by omega)

/-- A key event that ends no wait (60_exceptions.md R266; the spec's decision D12; log 18). -/
theorem setSlot_of_no_press {k : Fin 16} {p : Bool} {s : State}
    (h : s.mode = .running ∨ p = false ∨ s.key[k] = true) : setSlot k p s = s.writeKey k p := by
  refine if_neg fun ⟨hmode, hp, hkey⟩ => ?_
  obtain h | h | h := h
  · cases hmode.symm.trans h
  · cases hp.symm.trans h
  · cases hkey.symm.trans h

/-- Every slot's update is an accepted call (60_exceptions.md R266). -/
theorem transition_setKey_val (k : Fin 16) (p : Bool) (s : State) :
    transition (.setKey k.val p) s = (setSlot k p s, .ok) := by
  rw [transition, setKey_val]

/-- Settles O48: the index decides whether a slot is updated, and the transition to pressed whether a wait ends. -/
theorem setKeyFollowsTheWaitMachine : Obligations.SetKeyFollowsTheWaitMachine := by
  refine ⟨fun index p s h => ?_, fun k p s h => ?_, fun k s hm hk => ?_⟩
  · rw [transition, setKey_of_outOfRange h]
  · rw [transition_setKey_val, setSlot_of_no_press h]
    rfl
  · rw [transition_setKey_val, setSlot_of_press hm hk]
    rfl

end Sys2Proof.Machine
end

section
/-!
PROOFS of the statements about loading an image and the end of a run (70_reset_and_hazards.md). At a self-jump
steps and ticks move nothing but the timers; a run is cut short exactly by a step that returns an error.
-/

namespace Sys2Proof.Machine

open Sys2Proof.Claims

/-! ### Load -/

/-- An image that fits (70_reset_and_hazards.md R304). -/
theorem transition_load_of_le {image : List Byte} (h : image.length ≤ 3584) (s : State) :
    transition (.load image) s = (s.setMem (s.mem.writeBytes 0x200 image), .ok) := by
  rw [transition, loadImage, if_pos h]

/-- LoadError (60_exceptions.md R251). -/
theorem transition_load_of_gt {image : List Byte} (h : 3584 < image.length) (s : State) :
    transition (.load image) s = (s, .loadError) := by
  rw [transition, loadImage, if_neg (Nat.not_le_of_gt h)]

/-- Settles O49: the length decides, and memory reads as the image inside its range and as before outside it. -/
theorem loadCopiesTheImage : Obligations.LoadCopiesTheImage := fun _ s =>
  ⟨fun h => transition_load_of_gt h s, fun h =>
    ⟨_, transition_load_of_le h s, rfl, fun _ hk => s.mem.read_writeBytes_inside _ _ hk,
      fun _ ha => s.mem.read_writeBytes_outside _ _ ha⟩⟩

/-! ### The self-jump -/

/-- A jump to its own address sets pc to what it was (70_reset_and_hazards.md R320). -/
theorem step_of_atSelfJump {h : BitVec 12} {s : State} (hs : s.atSelfJump h) : step s = .next s := by
  obtain ⟨hm, hpc, hr, hw⟩ := hs
  have hd : decodeWord s.fetchWord = some (.jp h) := hw ▸ decodeWord_encode (.jp h)
  have hjump : exec (.jp h) s.advance = .next { s with pc := zextAddr h } := rfl
  rw [step_of_decodeWord hm ((fetchInRange_iff s).1 hr) hd, hjump, ← hpc]

/-- `t` is `s` but for the timers and the record of tones. -/
def onlyTimers (s t : State) : Prop := t = { s with DT := t.DT, ST := t.ST, events := t.events }

theorem onlyTimers_refl (s : State) : onlyTimers s s := rfl

theorem onlyTimers.trans {s t u : State} (hst : onlyTimers s t) (htu : onlyTimers t u) : onlyTimers s u := by
  rw [onlyTimers, htu, hst]

theorem onlyTimers_tickTimers (s : State) : onlyTimers s (tickTimers s) := by
  rw [tickTimers_eq]
  rfl

/-- The self-jump condition does not look at the timers. -/
theorem State.atSelfJump.of_onlyTimers {h : BitVec 12} {s t : State} (hs : s.atSelfJump h) (hst : onlyTimers s t) :
    t.atSelfJump h := by
  rw [hst]
  exact hs

/-- At a self-jump a step or a tick lets the run go on, and moves nothing but the timers. -/
theorem after_transition_of_atSelfJump {h : BitVec 12} {s : State} (hs : s.atSelfJump h) {op : Op}
    (hop : op = .step ∨ op = .tickTimers) :
    ∃ t, (transition op s).2.after (transition op s).1 = .next t ∧ onlyTimers s t := by
  obtain rfl | rfl := hop
  · refine ⟨s, ?_, onlyTimers_refl s⟩
    rw [transition_step_of_next (step_of_atSelfJump hs), after_completionResult]
  · exact ⟨tickTimers s, rfl, onlyTimers_tickTimers s⟩

theorem runUntilError_of_atSelfJump {h : BitVec 12} {ops : List Op} (hops : ∀ op ∈ ops, op = .step ∨ op = .tickTimers)
    {s : State} (hs : s.atSelfJump h) : ∃ t, runUntilError ops s = .next t ∧ onlyTimers s t := by
  induction ops generalizing s with
  | nil => exact ⟨s, rfl, onlyTimers_refl s⟩
  | cons op ops ih =>
    obtain ⟨hop, hrest⟩ := List.forall_mem_cons.1 hops
    obtain ⟨t, hafter, hst⟩ := after_transition_of_atSelfJump hs hop
    obtain ⟨u, hrun, htu⟩ := ih hrest (hs.of_onlyTimers hst)
    exact ⟨u, (runUntilError_cons_of_next ops hafter).trans hrun, hst.trans htu⟩

/-- Settles O54: a step answers the state itself, and an interleaving with ticks moves only the timers, which the
self-jump condition does not look at. -/
theorem selfJumpIsAFixedPoint : Obligations.SelfJumpIsAFixedPoint := by
  intro h s hs
  refine ⟨run_of_step_self (step_of_atSelfJump hs), fun ops hops => ?_⟩
  obtain ⟨t, hrun, hst⟩ := runUntilError_of_atSelfJump hops hs
  exact ⟨t, hrun, hs.of_onlyTimers hst, hst⟩

/-! ### The end of a run -/

/-- No step among `ops`, run from `s` by a host that continues, returns an error (40_step_cycle.md R128). -/
def noStepError (ops : List Op) (s : State) : Prop :=
  ∀ (pre post : List Op) (f : Fault), ops = pre ++ .step :: post →
    (transition .step (runOps pre s)).2 ≠ .stepped (.error f)

theorem noStepError_nil (s : State) : noStepError [] s := fun _ _ _ e => absurd e (by simp)

/-- A step in `op :: ops` is `op` itself or a step in `ops`, run from the state `op` leaves. -/
theorem noStepError_cons (op : Op) (ops : List Op) (s : State) :
    noStepError (op :: ops) s ↔
      (op = .step → ∀ f, (transition .step s).2 ≠ .stepped (.error f)) ∧ noStepError ops (transition op s).1 := by
  constructor
  · refine fun h => ⟨?_, fun pre post f e => h (op :: pre) post f (congrArg (op :: ·) e)⟩
    rintro rfl f
    exact h [] ops f rfl
  · rintro ⟨hop, hops⟩ (_ | ⟨op', pre⟩) post f e
    · obtain ⟨rfl, -⟩ := List.cons.inj e
      exact hop rfl f
    · obtain ⟨rfl, hrest⟩ := List.cons.inj e
      exact hops pre post f hrest

/-- A run that stops at its first step error answers a state exactly when no step of it fails, and then the state a host
that never stops comes to. -/
theorem runUntilError_eq_next_iff (ops : List Op) (s t : State) :
    runUntilError ops s = .next t ↔ runOps ops s = t ∧ noStepError ops s := by
  induction ops generalizing s with
  | nil => simp [runOps, noStepError_nil]
  | cons op ops ih =>
    rw [noStepError_cons, runOps]
    obtain ⟨hafter, hno⟩ | ⟨rfl, f, herr, hafter⟩ := after_transition_cases op s
    · have hop : op = .step → ∀ f, (transition .step s).2 ≠ .stepped (.error f) := by rintro rfl; exact hno
      rw [runUntilError_cons_of_next ops hafter, ih, and_iff_right hop]
    · rw [runUntilError_cons_of_fault ops hafter]
      exact iff_of_false (fun e => nomatch e) fun ⟨_, hno, _⟩ => hno rfl f herr

/-- Settles O58: the run that stops at its first error answers the state after all the operations, or none. -/
theorem runHasEndedOnlyWithoutAnError : Obligations.RunHasEndedOnlyWithoutAnError := by
  intro ops s h
  calc RunEnded ops s h
      ↔ ∃ t, (runOps ops s = t ∧ noStepError ops s) ∧ t.atSelfJump h := by
        simp only [RunEnded, runUntilError_eq_next_iff]
    _ ↔ (runOps ops s).atSelfJump h ∧ noStepError ops s :=
        ⟨fun ⟨_, ⟨e, hno⟩, ht⟩ => ⟨e ▸ ht, hno⟩, fun ⟨hend, hno⟩ => ⟨_, ⟨rfl, hno⟩, hend⟩⟩

end Sys2Proof.Machine
end


section
/-!
PROOFS of the statement about groups 5 and 9, whose words have an instruction only where the low nibble is 0
(92_eei_decisions.md D9; log 15).
-/

namespace Sys2Proof

open Sys2Proof.Claims Sys2Proof.Machine

theorem decodeWord_group5 (x y n : Fin 16) :
    decodeWord (packDigits 0x5 x y n) = if n = 0 then some (.seReg x y) else none := by
  simp [decodeWord, fieldG_packDigits, fieldX_packDigits, fieldY_packDigits, fieldN_packDigits]

theorem decodeWord_group9 (x y n : Fin 16) :
    decodeWord (packDigits 0x9 x y n) = if n = 0 then some (.sneReg x y) else none := by
  simp [decodeWord, fieldG_packDigits, fieldX_packDigits, fieldY_packDigits, fieldN_packDigits]

/-- Settles O5: the words of the statement are the encoder's, and each group has its own equation. -/
theorem groupsFiveAndNineRequireLowNibbleZero : Obligations.GroupsFiveAndNineRequireLowNibbleZero := by
  intro x y n
  rw [digits_eq_packDigits, digits_eq_packDigits]
  exact ⟨decodeWord_group5 x y n, decodeWord_group9 x y n⟩

end Sys2Proof
end
